-- ==== Sys2Proof/Word.lean ====
section
/-! DEFINITION. The block's word types: every width is fixed (spec/00_scope.md R7) and every value is unsigned (R11). -/

namespace Sys2Proof

/-- A byte: an opcode, an operand, or the value of `A`, `X`, `SP` or `P` (R7). -/
abbrev Byte := BitVec 8

/-- A 16-bit index into the program buffer: the value of `PC` (R7, R33). -/
abbrev Addr := BitVec 16

end Sys2Proof
end

