-- ==== Sys2Proof/Config.lean ====
section
/-! DEFINITION. The constants of the block. The spec leaves no behaviour as "any value" (spec/93_implementation_defined.md, end of
part 1) and gives no other implementation parameter (R10), so there is no free value here. -/

namespace Sys2Proof.Config

/-- The longest program START accepts (R8, decision D3 of spec/92_eei_decisions.md). -/
def maxProgLen : Nat := 0xFFFF

/-- The entry program counter of every run (R9, R50, R117). -/
def entryPc : Addr := 0x0000#16

end Sys2Proof.Config
end

