-- ==== Sys2Proof/Syntax.lean ====
section
/-! DEFINITION. The instruction set: the four rows of spec/opcode_table.json (R2, R63) and their formats (R59, R60). -/

namespace Sys2Proof

/-- The instructions of the block, one constructor per row of the opcode table. -/
inductive Instr where
  /-- BRK, 0x00: halt the loop (R90). -/
  | brk
  /-- LDA immediate, 0xA9: load the accumulator with the byte that follows the opcode (R86). -/
  | lda (imm : Byte)
  /-- TAX, 0xAA: transfer the accumulator to X (R87). -/
  | tax
  /-- INX, 0xE8: increment X by one, wrapping at 256 (R88). -/
  | inx
  deriving DecidableEq, Repr

/-- The rows of the opcode map, which the opcode byte alone selects (R62, R63). -/
inductive Opcode where
  | brk | lda | tax | inx
  deriving DecidableEq, Repr

/-- The instruction formats (R59, R60). -/
inductive Format where
  /-- implied: the opcode byte alone -/
  | impl
  /-- immediate: the opcode byte and one operand byte -/
  | imm8
  deriving DecidableEq, Repr

/-- The bytes an instruction of the format has (R58, R59, R60). -/
def Format.length : Format → Nat
  | .impl => 1
  | .imm8 => 2

/-- The format of a row (R63). -/
def Opcode.format : Opcode → Format
  | .brk => .impl
  | .lda => .imm8
  | .tax => .impl
  | .inx => .impl

/-- The row an instruction belongs to. -/
def Instr.opcode : Instr → Opcode
  | .brk => .brk
  | .lda _ => .lda
  | .tax => .tax
  | .inx => .inx

/-- The length of an instruction in bytes, known from its opcode alone (R64). -/
def Instr.length (i : Instr) : Nat := i.opcode.format.length

end Sys2Proof
end

