-- ==== Sys2Proof/Decode.lean ====
section
/-! DEFINITION. The decoder, total on any bytes and rejecting by name, and after it the encoder, both written from the opcode map of
spec/30_encoding.md (R63). -/

namespace Sys2Proof

/-- Why bytes are no instruction. -/
inductive DecodeError where
  /-- there is no byte to decode -/
  | noOpcode
  /-- the opcode byte is none of the four of R63 (R65) -/
  | unimplementedOpcode (op : Byte)
  /-- the opcode is 0xA9 and no byte follows it (R86) -/
  | noOperand
  deriving DecidableEq, Repr

/-- The opcode map: exactly four entries, each compared as a whole byte (R62, R63, R76). -/
def opcodeMap : List (Byte × Opcode) :=
  [(0x00#8, .brk), (0xA9#8, .lda), (0xAA#8, .tax), (0xE8#8, .inx)]

/-- The row an opcode byte selects; none for the 252 illegal values (R65). -/
def decodeOpcode (op : Byte) : Option Opcode := opcodeMap.lookup op

/-- Decode the instruction at the head of a byte sequence and answer the rest. Byte 1 is read only when byte 0 is 0xA9 (R64), and an
operand byte is never decoded (R66). -/
def decode : List Byte → Except DecodeError (Instr × List Byte)
  | [] => .error .noOpcode
  | op :: rest =>
    match decodeOpcode op with
    | none => .error (.unimplementedOpcode op)
    | some .brk => .ok (.brk, rest)
    | some .tax => .ok (.tax, rest)
    | some .inx => .ok (.inx, rest)
    | some .lda =>
      match rest with
      | [] => .error .noOperand
      | imm :: rest' => .ok (.lda imm, rest')

/-- The opcode byte of a row (R63). -/
def opcodeByte : Opcode → Byte
  | .brk => 0x00#8
  | .lda => 0xA9#8
  | .tax => 0xAA#8
  | .inx => 0xE8#8

/-- The operand bytes of an instruction (R59, R60). -/
def Instr.operandBytes : Instr → List Byte
  | .brk => []
  | .lda imm => [imm]
  | .tax => []
  | .inx => []

/-- The bytes of an instruction: the opcode at the lower index, then the operand (R60). -/
def encode (i : Instr) : List Byte := opcodeByte i.opcode :: i.operandBytes

/-- The two bytes of a word numbered as spec/opcode_table.json numbers it: bit 0 the least significant bit of byte 0, byte 1 at bits
15..8, every bit at or above `nbits` zero. -/
def tableWordBytes (nbits w : Nat) : List Byte :=
  [BitVec.ofNat 8 (w % 2 ^ nbits), BitVec.ofNat 8 (w % 2 ^ nbits / 256)]

/-- The instruction the decoder reads from a word of the opcode table. -/
def decodeTableWord (nbits w : Nat) : Option Instr :=
  match decode (tableWordBytes nbits w) with
  | .ok (i, _) => some i
  | .error _ => none

end Sys2Proof
end

