-- ==== Sys2Proof/Machine/State.lean ====
section
/-! DEFINITION. The state of the block (spec/10_state.md R17) with the argument of the run in progress beside it (R39, log 1), and the reasons a
step or a host command can stop. -/

namespace Sys2Proof.Machine

/-- The run state `RS` (R37; the four values are the spec's own choice, D5). -/
inductive RunState where
  /-- constructed, no run started yet -/
  | idle
  /-- a run is in progress: the only state in which the loop steps (R71) -/
  | running
  /-- the last run ended at BRK -/
  | halted
  /-- the last run ended at a fault -/
  | faulted
  deriving DecidableEq, Repr

/-- A fatal condition with the values it reports (R38, R91). -/
inductive FatalCondition where
  /-- the fetched byte is no supported opcode; reports the byte and the index it was fetched at (R93) -/
  | unimplementedOpcode (opcode : Byte) (programCounter : Addr)
  /-- a read at or past the end of the program; reports the index of the failed read (R94, D7) -/
  | programTruncated (programCounter : Addr)
  deriving DecidableEq, Repr

/-- The fault record `FR` (R38): `none`, or the fatal condition of the last run. -/
abbrev FaultRecord := Option FatalCondition

/-- The one address space, the program buffer `PROG` (R42), as (index, byte) pairs. An unlisted index reads as nothing: a read of it is
ProgramTruncated (R44). The canonical form is `Memory.wf` (Machine/Ops.lean). -/
abbrev Memory := List Host.Cell

/-- Everything the spec gives the machine, as plain data. -/
structure State where
  /-- `PC`, the index into the program (R33) -/
  pc : Addr
  /-- `A`, the accumulator (R19) -/
  a : Byte
  /-- `X`, register_x (R20) -/
  x : Byte
  /-- `SP`, the stack pointer, which nothing reads or writes (R21) -/
  sp : Byte
  /-- `P`, the processor status: C Z I D at bits 0 to 3, V N at bits 6 and 7 (R23) -/
  p : Byte
  /-- `RS`, the run state (R37) -/
  rs : RunState
  /-- `FR`, the fault record (R38) -/
  fr : FaultRecord
  /-- `PROG`, the argument of the run in progress and no state of the block (R8, R39): here because a step takes a state alone (log 1),
  given by START, empty whenever no run is in progress -/
  prog : Memory
  deriving DecidableEq, Repr

/-- The reasons a step stops the machine for good. There is none: the block's two fatal conditions are recorded in `FR` and end the run
in FAULTED, a next state from which the host goes on (R91, R95, R98, log 4). Nothing raises a `Fault`; safe. -/
inductive Fault where
  deriving DecidableEq, Repr

/-- The reasons the model gives something no meaning. -/
inductive Refusal where
  /-- An instruction without a meaning; raised by a refused arm of `exec` only, and every arm has its meaning. Safe. -/
  | notModelled (mnemonic : String)
  /-- A host command other than CONSTRUCT while a run is in progress; raised by `command` and `hostRead` (R102, R104, D10, D12). Safe:
  no claim follows about a host that does so. -/
  | runInProgress
  /-- START with more than 0xFFFF bytes; raised by `command` (R104, D3). Safe: no claim follows about such a program. -/
  | programTooLong
  deriving DecidableEq, Repr

/-- The state after construction (R103, R114): every register zero, `RS` IDLE, `FR` none, and no program given yet (log 1). -/
def State.reset : State :=
  { pc := 0x0000#16, a := 0x00#8, x := 0x00#8, sp := 0x00#8, p := 0x00#8, rs := .idle, fr := none, prog := [] }

end Sys2Proof.Machine
end

