-- ==== Sys2Proof/Machine/Flags.lean ====
section
/-! DEFINITION. The layout of `P` (R23) and the flag-update unit (R27 to R30): pure bit arithmetic on `P` and one result byte. -/

namespace Sys2Proof.Machine

/-- The named flags of `P` (R23). Bits 4 and 5 have no name and stay 0 (R24). -/
inductive Flag where
  | carry | zero | interruptDisable | decimal | overflow | negative
  deriving DecidableEq, Repr

/-- The bit of `P` a flag stands at (R23). -/
def Flag.bit : Flag → Nat
  | .carry => 0
  | .zero => 1
  | .interruptDisable => 2
  | .decimal => 3
  | .overflow => 6
  | .negative => 7

/-- The value of a flag in a processor status byte (R12). -/
def readFlag (f : Flag) (p : Byte) : Bool := p.getLsbD f.bit

/-- A byte with bit `i` set to `b` and every other bit as it was. -/
def setBit (v : Byte) (i : Nat) (b : Bool) : Byte :=
  if b then v ||| (1#8 <<< i) else v &&& ~~~(1#8 <<< i)

/-- UpdateN: `P[7] <- r[7]` (R27). -/
def updateN (r p : Byte) : Byte := setBit p Flag.negative.bit (r.getLsbD 7)

/-- UpdateZ: `P[1] <- (r == 0x00)` (R28). -/
def updateZ (r p : Byte) : Byte := setBit p Flag.zero.bit (r == 0x00#8)

/-- UpdateNZ: UpdateN, then UpdateZ, on the same result byte (R29). -/
def updateNZ (r p : Byte) : Byte := updateZ r (updateN r p)

end Sys2Proof.Machine
end

