-- ==== Sys2Proof/Machine/Ops.lean ====
section
/-! DEFINITION. The shared operations: the program buffer and its read (R42 to R44), the registers (R17 to R22), the program-counter
increment (R75), taking a fault (R95), halting (R78), the run start (R72) and the release of the program at the run's end (R39). No instruction writes memory (R13), there is no return
from a fault (R98), and the two encodings of `RS` and `FR` as bits stand here (R37, R92). -/

namespace Sys2Proof.Machine

/-- The cells of a byte sequence whose first byte has index `base`. -/
def Memory.cellsFrom (base : Nat) : List Byte → Memory
  | [] => []
  | b :: bs => (base, b) :: Memory.cellsFrom (base + 1) bs

/-- The program buffer of a byte sequence: byte `bi` at index `i` (R42). This is the only operation that makes a memory. -/
def Memory.ofBytes (bs : List Byte) : Memory := Memory.cellsFrom 0 bs

/-- The bytes of a program buffer in index order. -/
def Memory.bytes (m : Memory) : List Byte := m.map Prod.snd

/-- The byte at an index; an index that is not listed holds nothing (R42). -/
def Memory.byteAt (m : Memory) (i : Nat) : Option Byte := m.lookup i

/-- The canonical form: the indexes are exactly 0, 1, ..., length - 1 in this order (R42). So they rise strictly, no cell holds what an
unlisted index reads as (nothing), and equal programs are equal lists. -/
def Memory.wf (m : Memory) : Bool := m.map Prod.fst == List.range m.length

namespace State

/-- `PROG_LEN`, the size of the program in bytes (R8). -/
def progLen (s : State) : Nat := s.prog.length

/-- `PC <- v`. -/
def setPc (v : Addr) (s : State) : State := { s with pc := v }

/-- `A <- v`. -/
def setA (v : Byte) (s : State) : State := { s with a := v }

/-- `X <- v`. -/
def setX (v : Byte) (s : State) : State := { s with x := v }

/-- `P <- v`. -/
def setP (v : Byte) (s : State) : State := { s with p := v }

/-- The combined flag update applied to `P` with the result byte `r` (R29, R31). -/
def applyNZ (r : Byte) (s : State) : State := s.setP (updateNZ r s.p)

/-- The program_counter_increment unit: `PC <- PC + 1` (R75). It never wraps in a run (R35); elsewhere it wraps at 16 bits (log 9). -/
def advancePc (s : State) : State := s.setPc (s.pc + 1#16)

/-- `raise E(info)`: `FR <- info`, `RS <- FAULTED`, and nothing else; the writes made before stay (R14, R95). -/
def raise (c : FatalCondition) (s : State) : State := { s with fr := some c, rs := .faulted }

/-- `halt`: `RS <- HALTED`, and nothing else (R14, R78). -/
def halt (s : State) : State := { s with rs := .halted }

/-- The run start: `PC <- 0`, `FR <- none`, `RS <- RUNNING` with the program given; `A`, `X`, `SP`, `P` unchanged (R72, R116). The
guard of START is in `HostCommand.refusal`. -/
def beginRun (bytes : List Byte) (s : State) : State :=
  { s with pc := Config.entryPc, fr := none, rs := .running, prog := Memory.ofBytes bytes }

/-- The program is the loop's argument while a run is in progress and is handed back when the run has ended: the block keeps no copy
(R8, R39). Nothing else changes. -/
def releaseProgram (s : State) : State := { s with prog := if s.rs = .running then s.prog else [] }

end State

/-- `MemRead(addr, 1)`: the byte at the index, or the condition ProgramTruncated carrying the index of the failed read (R44, D7). -/
def memRead (s : State) (addr : Addr) : Except FatalCondition Byte :=
  match s.prog.byteAt addr.toNat with
  | some b => .ok b
  | none => .error (.programTruncated addr)

/-- `(v + 1) mod 2^8` (R12, R89). -/
def incrementByte (v : Byte) : Byte := v + 1#8

/-- `RS` in its two bits (R37). -/
def RunState.code : RunState → BitVec 2
  | .idle => 0#2
  | .running => 1#2
  | .halted => 2#2
  | .faulted => 3#2

/-- The field `FR.cause` (R92). -/
def FaultRecord.cause : FaultRecord → BitVec 2
  | none => 0#2
  | some (.unimplementedOpcode _ _) => 1#2
  | some (.programTruncated _) => 2#2

/-- The field `FR.opcode` (R92). -/
def FaultRecord.opcode : FaultRecord → Byte
  | none => 0x00#8
  | some (.unimplementedOpcode op _) => op
  | some (.programTruncated _) => 0x00#8

/-- The field `FR.pc` (R92). -/
def FaultRecord.pc : FaultRecord → Addr
  | none => 0x0000#16
  | some (.unimplementedOpcode _ pc) => pc
  | some (.programTruncated pc) => pc

end Sys2Proof.Machine
end

