-- ==== Sys2Proof/Machine/Control.lean ====
section
/-! DEFINITION. The control instruction (spec/43_control.md), on the state after the opcode fetch. -/

namespace Sys2Proof.Machine

/-- BRK: `halt`. No flag, no register, no push, no vector (R90). -/
def execBrk (s : State) : Host.Outcome State Fault Refusal := .next s.halt

end Sys2Proof.Machine
end

