-- ==== Sys2Proof/Machine/Increment.lean ====
section
/-! DEFINITION. The increment instruction (spec/42_increment.md), on the state after the opcode fetch. -/

namespace Sys2Proof.Machine

/-- INX: `X <- (X + 1) mod 2^8`, UpdateNZ(X) on the new value; C and V are not written (R88, R89). -/
def execInx (s : State) : Host.Outcome State Fault Refusal :=
  let bumped := s.setX (incrementByte s.x)
  .next (bumped.applyNZ bumped.x)

end Sys2Proof.Machine
end

