-- ==== Sys2Proof/Machine/LoadTransfer.lean ====
section
/-! DEFINITION. The load and transfer instructions (spec/41_load_transfer.md). Each meaning acts on the state after the opcode fetch,
in which `PC = fetch_pc + 1`. -/

namespace Sys2Proof.Machine

/-- LDA immediate, its operand read: `PC <- PC + 1`, `A <- v`, UpdateNZ(A) (R86). An operand that cannot be read raises ProgramTruncated
in `fetch`, before this point (log 7). -/
def execLda (imm : Byte) (s : State) : Host.Outcome State Fault Refusal :=
  let loaded := s.advancePc.setA imm
  .next (loaded.applyNZ loaded.a)

/-- TAX: `X <- A`, UpdateNZ(X) (R87). -/
def execTax (s : State) : Host.Outcome State Fault Refusal :=
  let moved := s.setX s.a
  .next (moved.applyNZ moved.x)

end Sys2Proof.Machine
end

