-- ==== Sys2Proof/Machine/Operands.lean ====
section
/-! DEFINITION. The operand forms: implied (no operand byte, R59) and immediate (the byte that follows the opcode, R60, R61). -/

namespace Sys2Proof.Machine

/-- The operand bytes a format reads at `PC`, in the state after the opcode fetch, so that `PC` is the index after the opcode. Implied
reads none; immediate reads the byte at `PC`, and there is none when that read fails (R45, R61, R64). -/
def operandBytesAt (s : State) : Format → List Byte
  | .impl => []
  | .imm8 =>
    match memRead s s.pc with
    | .ok v => [v]
    | .error _ => []

end Sys2Proof.Machine
end

