-- ==== Sys2Proof/Machine/Fetch.lean ====
section
/-! DEFINITION. One iteration of the loop (spec/40_fetch_decode.md): opcode fetch, program-counter increment, decode, dispatch. -/

namespace Sys2Proof.Machine

/-- What the fetch and decode part of a step comes to. -/
inductive Fetched where
  /-- an instruction, and the state after the opcode fetch in which its handler starts (R74) -/
  | decoded (i : Instr) (s : State)
  /-- a fault was taken: the state it leaves (R95) -/
  | raised (s : State)
  deriving DecidableEq, Repr

/-- Decode the fetched byte `op`, in the state after the opcode fetch; `fetchPc` is the index `op` was fetched at. An illegal opcode
reports `fetchPc` (R77); a missing operand reports the operand's index, which is `PC` now (R86, R94). The checks run in the order of
R97: an illegal opcode reads no operand. -/
def decodeFetched (fetchPc : Addr) (op : Byte) (s : State) : Fetched :=
  match decodeOpcode op with
  | none => .raised (s.raise (.unimplementedOpcode op fetchPc))
  | some row =>
    match decode (op :: operandBytesAt s row.format) with
    | .ok (i, _) => .decoded i s
    | .error _ => .raised (s.raise (.programTruncated s.pc))

/-- Opcode fetch and advance, then decode (R73, R74, R76). A failed opcode fetch changes no register. -/
def fetch (s : State) : Fetched :=
  match memRead s s.pc with
  | .error c => .raised (s.raise c)
  | .ok op => decodeFetched s.pc op s.advancePc

/-- The complete step of R79: fetch and decode, then the handler; a fault is a next state with `RS = FAULTED` (R95, log 4). -/
def fetchDecodeExecute (s : State) : Host.Outcome State Fault Refusal :=
  match fetch s with
  | .decoded i s' => exec i s'
  | .raised s' => .next s'

/-- A step of a run: the step of R79, and after a step that ended the run its program is released (R39). -/
def runStep (s : State) : Host.Outcome State Fault Refusal :=
  match fetchDecodeExecute s with
  | .next t => .next t.releaseProgram
  | .fault f => .fault f
  | .refused r => .refused r

/-- The loop: a step is enabled only when `RS = RUNNING`; otherwise the block takes no step and changes no state, waiting for a host
command (R70, R71, R113, log 2). -/
def loopStep (s : State) : Host.Outcome State Fault Refusal :=
  match s.rs with
  | .running => runStep s
  | .idle => .next s
  | .halted => .next s
  | .faulted => .next s

end Sys2Proof.Machine
end

