-- ==== Sys2Proof/Machine/Step.lean ====
section
/-! DEFINITION. The step of the machine, and the state in which the next step fetches a given word. -/

namespace Sys2Proof.Machine

/-- One step of the block. -/
def step (s : State) : Host.Outcome State Fault Refusal := loopStep s

/-- The state in which the next step fetches and runs the word: a run just begun on the word's bytes as its program. The block has no
other way to receive a program than a run start, which puts `PC` at 0 (R72, R117, log 3). -/
def State.withFetchWord (s : State) (nbits w : Nat) : State := s.beginRun (tableWordBytes nbits w)

end Sys2Proof.Machine
end

