-- ==== Sys2Proof/Machine/Reference.lean ====
section
/-! DEFINITION. The step of R79 a second time, transcribed with exact arithmetic on natural numbers over the program as a byte sequence:
no 16-bit wrap, no decoder, no cells. It is what the machine's step is held against (R35, R79), and no part of the machine. -/

namespace Sys2Proof.Machine.Reference

/-- A fatal condition with exact numbers (R38). -/
inductive Condition where
  | unimplementedOpcode (opcode pc : Nat)
  | programTruncated (pc : Nat)
  deriving DecidableEq, Repr

/-- The architectural state of R17 as exact numbers. -/
structure Block where
  pc : Nat
  a : Nat
  x : Nat
  sp : Nat
  p : Nat
  rs : RunState
  fr : Option Condition
  deriving DecidableEq, Repr

/-- The closed form of R29: `P <- (P & 0b0111_1101) | (r[7] << 7) | ((r == 0) << 1)`. -/
def nextP (r p : Nat) : Nat := (p &&& 0x7D) ||| (r / 128 % 2 * 128) ||| (if r = 0 then 2 else 0)

/-- `raise` (R95). -/
def Block.stop (c : Condition) (b : Block) : Block := { b with fr := some c, rs := .faulted }

/-- The `case op of` of R79, with `PC` already advanced past the opcode at `fetchPc`. -/
def execute (prog : List Byte) (fetchPc op : Nat) (b : Block) : Block :=
  if op = 0xA9 then
    match prog[b.pc]? with
    | none => b.stop (.programTruncated b.pc)
    | some v => { b with pc := b.pc + 1, a := v.toNat, p := nextP v.toNat b.p }
  else if op = 0xAA then { b with x := b.a, p := nextP b.a b.p }
  else if op = 0xE8 then { b with x := (b.x + 1) % 256, p := nextP ((b.x + 1) % 256) b.p }
  else if op = 0x00 then { b with rs := .halted }
  else b.stop (.unimplementedOpcode op fetchPc)

/-- `Step()` of R79, enabled only when `RS = RUNNING` (R71). -/
def next (prog : List Byte) (b : Block) : Block :=
  if b.rs = .running then
    match prog[b.pc]? with
    | none => b.stop (.programTruncated b.pc)
    | some op => execute prog b.pc op.toNat { b with pc := b.pc + 1 }
  else b

/-- The exact numbers of a machine's fatal condition. -/
def ofCondition : FatalCondition → Condition
  | .unimplementedOpcode op pc => .unimplementedOpcode op.toNat pc.toNat
  | .programTruncated pc => .programTruncated pc.toNat

/-- The exact numbers of a machine's state. -/
def ofState (s : State) : Block :=
  { pc := s.pc.toNat, a := s.a.toNat, x := s.x.toNat, sp := s.sp.toNat, p := s.p.toNat, rs := s.rs, fr := s.fr.map ofCondition }

end Sys2Proof.Machine.Reference
end

