-- ==== Sys2Proof/WellFormed.lean ====
section
/-! DEFINITION. Well-formedness. Every term of `Instr` is a well-formed instruction by its type: the one operand of the instruction
set is a whole unsigned byte and every byte is a legal operand (R61, R66). What is left to check is the program a host gives to
START: its length (R8). -/

namespace Sys2Proof

/-- A program a run may have: `0 <= PROG_LEN <= 0xFFFF` (R8, D3). Its bytes are free: whatever they are, the loop gives them a
meaning (R65). -/
def programWellFormed (prog : List Byte) : Bool := decide (prog.length ≤ Config.maxProgLen)

end Sys2Proof
end

