-- ==== Sys2Proof/Machine/HostCommands.lean ====
section
/-! DEFINITION. The host interface: the six commands of R102, each acting between steps (log 11), and `run(program)`, a START with the
steps that follow it until the run ends (R80, R104). -/

namespace Sys2Proof.Machine

/-- The host commands (R102). -/
inductive HostCommand where
  /-- CONSTRUCT (R103) -/
  | construct
  /-- START(PROG) (R104) -/
  | start (prog : List Byte)
  /-- READ (R105) -/
  | read
  /-- UPDATE_N(r) (R106) -/
  | updateN (r : Byte)
  /-- UPDATE_Z(r) (R106) -/
  | updateZ (r : Byte)
  /-- UPDATE_NZ(r) (R106) -/
  | updateNZ (r : Byte)
  deriving DecidableEq, Repr

/-- `RS != RUNNING`, or the refusal of a command that needs it (R102). -/
def refusalWhileRunning (s : State) : Option Refusal :=
  if s.rs = .running then some .runInProgress else none

/-- Why a command is refused in a state; `none` where it is accepted (R102, R104). When a START is refused on both grounds the run in
progress is named (log 10). -/
def HostCommand.refusal (c : HostCommand) (s : State) : Option Refusal :=
  match c with
  | .construct => none
  | .start prog =>
    match refusalWhileRunning s with
    | some r => some r
    | none => if programWellFormed prog then none else some .programTooLong
  | .read => refusalWhileRunning s
  | .updateN _ => refusalWhileRunning s
  | .updateZ _ => refusalWhileRunning s
  | .updateNZ _ => refusalWhileRunning s

/-- What an accepted command does to the state (R103 to R106). -/
def HostCommand.effect (c : HostCommand) (s : State) : State :=
  match c with
  | .construct => State.reset
  | .start prog => s.beginRun prog
  | .read => s
  | .updateN r => s.setP (Sys2Proof.Machine.updateN r s.p)
  | .updateZ r => s.setP (Sys2Proof.Machine.updateZ r s.p)
  | .updateNZ r => s.setP (Sys2Proof.Machine.updateNZ r s.p)

/-- A host command: its effect, or its refusal, which changes no state (R102, R104). -/
def command (c : HostCommand) (s : State) : Host.Outcome State Fault Refusal :=
  match c.refusal s with
  | some r => .refused r
  | none => .next (c.effect s)

/-- What READ returns (R105). The program is no part of it (R39). -/
structure Observation where
  a : Byte
  x : Byte
  sp : Byte
  p : Byte
  pc : Addr
  rs : RunState
  fr : FaultRecord
  deriving DecidableEq, Repr

/-- The registers, run state and fault record of a state. -/
def State.observation (s : State) : Observation :=
  { a := s.a, x := s.x, sp := s.sp, p := s.p, pc := s.pc, rs := s.rs, fr := s.fr }

/-- The value READ returns to the host; refused while a run is in progress (R105, D12). -/
def hostRead (s : State) : Host.Outcome Observation Fault Refusal :=
  match HostCommand.refusal .read s with
  | some r => .refused r
  | none => .next s.observation

/-- How a run ended. -/
inductive RunEnd where
  /-- the normal return, at BRK -/
  | returned
  /-- the fault record reported to the host -/
  | reported (fr : FaultRecord)
  deriving DecidableEq, Repr

/-- A run has ended exactly when `RS` is HALTED or FAULTED: it returns normally when HALTED and reports `FR` when FAULTED (R80). -/
def State.runEnd (s : State) : Option RunEnd :=
  match s.rs with
  | .halted => some .returned
  | .faulted => some (.reported s.fr)
  | .idle => none
  | .running => none

/-- `run(program)`: a START, and as many steps as any run of the program can take, PROG_LEN + 1 (R82, R104). -/
def runProgram (prog : List Byte) (s : State) : Host.Outcome State Fault Refusal :=
  match command (.start prog) s with
  | .next begun => Host.Core.run Sys2Proof.core (prog.length + 1) begun
  | .fault f => .fault f
  | .refused r => .refused r

end Sys2Proof.Machine
end

