-- ==== Sys2Proof/Safety.lean ====
section
/-! DEFINITION. What the machine keeps: the program a run may have, the invariant of every state, and the states a host can reach. -/

namespace Sys2Proof.Machine

/-- The program buffer is a program a run may have: canonical, and at most 0xFFFF bytes (R8, R42). -/
structure State.ProgramOk (s : State) : Prop where
  canonical : s.prog.wf = true
  fits : s.progLen ≤ Config.maxProgLen

/-- What holds of every state of the block. -/
structure State.Inv (s : State) : Prop where
  programOk : s.ProgramOk
  /-- while a run is in progress `0 <= PC <= PROG_LEN` (R33) -/
  pcInBounds : s.rs = .running → s.pc.toNat ≤ s.progLen
  /-- outside a run the block keeps no program (R39) -/
  noProgramOutsideRun : s.rs ≠ .running → s.prog = []
  /-- `SP` holds 0x00 for the whole life of the block (R21) -/
  spZero : s.sp = 0x00#8
  /-- bits 4 and 5 of `P` are 0 (R24), and so are C, I, D and V (R25) -/
  onlyNZ : s.p &&& 0x7D#8 = 0x00#8
  /-- `FR` is not `none` exactly when `RS` is FAULTED (R38) -/
  recordIffFaulted : s.fr.isSome = true ↔ s.rs = .faulted

/-- `P` as runs alone leave it: 0x00, 0x02 or 0x80 (R32). -/
def State.StatusOfRuns (s : State) : Prop := s.p = 0x00#8 ∨ s.p = 0x02#8 ∨ s.p = 0x80#8

/-- The loop is about to fetch the opcode byte `op` (R74). -/
def State.Fetches (s : State) (op : Byte) : Prop := s.rs = .running ∧ s.prog.byteAt s.pc.toNat = some op

/-- The run of a state has ended (R80). -/
def State.Ended (s : State) : Prop := s.rs = .halted ∨ s.rs = .faulted

/-- The states a host can bring the block to: from construction, by accepted commands and steps (R102). -/
inductive Reachable : State → Prop where
  | constructed : Reachable State.reset
  | commanded {s t : State} (c : HostCommand) : Reachable s → command c s = .next t → Reachable t
  | stepped {s t : State} : Reachable s → step s = .next t → Reachable t

/-- The states reached without a host flag command (R32). -/
inductive ReachableByRuns : State → Prop where
  | constructed : ReachableByRuns State.reset
  | started {s t : State} (prog : List Byte) : ReachableByRuns s → command (.start prog) s = .next t → ReachableByRuns t
  | stepped {s t : State} : ReachableByRuns s → step s = .next t → ReachableByRuns t

end Sys2Proof.Machine
end

