-- ==== Sys2Proof/Certificates/Slice0/Obligations.lean ====
section
/-! DEFINITION. The statements about the model, for the provers. "log n" is notes/assumptions/n.md, "Dn" a decision of
spec/92_eei_decisions.md. `RS` and `FR` are the spec's explicit names for the source's loop state and fault report (D5, D6); the rules
cited use these names themselves. `State.observation` is the architectural state of the block as R17 lists it, `A`, `X`, `SP`, `P`, `PC`,
`RS` and `FR`: all of State but the argument of the run in progress (log 1). -/

open Sys2Proof Sys2Proof.Machine

/-! ## Construction and the flag-update unit -/

/-- R103: CONSTRUCT sets every register to zero, `RS` to IDLE and `FR` to none, from any state. The field `prog` is the model's (log 1)
and is not stated here. -/
def Obligations.ConstructionState : Prop :=
  ∀ s : State, ∃ t : State, command .construct s = .next t ∧ t.pc = 0x0000#16 ∧ t.a = 0x00#8 ∧ t.x = 0x00#8 ∧
    t.sp = 0x00#8 ∧ t.p = 0x00#8 ∧ t.rs = .idle ∧ t.fr = none

/-- R27 and R28, bit by bit: UpdateN writes bit 7 of `P` with bit 7 of the result, UpdateZ writes bit 1 with "the result is zero", and
neither touches another bit. -/
def Obligations.FlagHelpersTouchOneBit : Prop :=
  ∀ (r p : Byte) (j : Nat),
    (updateN r p).getLsbD j = (if j = 7 then r.getLsbD 7 else p.getLsbD j) ∧
    (updateZ r p).getLsbD j = (if j = 1 then decide (r = 0x00#8) else p.getLsbD j)

/-- R29: UpdateNZ is UpdateN then UpdateZ, the order does not matter, and it is the closed form
`(P & 0b0111_1101) | (r[7] << 7) | ((r == 0) << 1)`. -/
def Obligations.UpdateNZClosedForm : Prop :=
  ∀ r p : Byte,
    updateNZ r p = updateZ r (updateN r p) ∧
    updateNZ r p = updateN r (updateZ r p) ∧
    updateNZ r p = (p &&& 0b01111101#8) ||| ((r >>> 7) <<< 7) ||| ((if r = 0x00#8 then 1#8 else 0#8) <<< 1)

/-- R31 and R85: LDA applies UpdateNZ to the `A` it wrote, TAX and INX to the `X` they wrote, BRK updates no flag; N and Z follow the
result byte and every other bit of `P` is left untouched. -/
def Obligations.InstructionsUpdateFlagsFromResult : Prop :=
  (∀ (v : Byte) (s t : State), exec (.lda v) s = .next t →
    t.p = updateNZ t.a s.p ∧ readFlag .negative t.p = t.a.getLsbD 7 ∧ readFlag .zero t.p = decide (t.a = 0x00#8)) ∧
  (∀ (i : Instr) (s t : State), i = .tax ∨ i = .inx → exec i s = .next t →
    t.p = updateNZ t.x s.p ∧ readFlag .negative t.p = t.x.getLsbD 7 ∧ readFlag .zero t.p = decide (t.x = 0x00#8)) ∧
  (∀ s t : State, exec .brk s = .next t → t.p = s.p) ∧
  (∀ (i : Instr) (s t : State), exec i s = .next t →
    ∀ j : Nat, j ≠ Flag.zero.bit → j ≠ Flag.negative.bit → t.p.getLsbD j = s.p.getLsbD j)

/-! ## The four instructions: result, completion and frame at once -/

/-- R61: LDA's operand is the whole program byte that follows the opcode, unsigned and not extended. LDA completes in every state: the
handler, which starts with `PC` past the opcode, advances `PC` past the operand, loads `A`, updates N and Z, and changes nothing else;
and so does the step that fetches 0xA9 with an operand byte behind it. -/
def Obligations.LdaImmediateResult : Prop :=
  (∀ (s : State) (v : Byte),
    exec (.lda v) s = .next { s with pc := s.pc + 1#16, a := v, p := updateNZ v s.p }) ∧
  (∀ (s : State) (v : Byte), s.ProgramOk → s.Fetches 0xA9#8 → s.prog.byteAt (s.pc.toNat + 1) = some v →
    step s = .next { s with pc := s.pc + 2#16, a := v, p := updateNZ v s.p } ∧
    (s.pc + 2#16).toNat = s.pc.toNat + 2)

/-- LDA whose opcode is the last byte of the program: ProgramTruncated carrying the operand's index, which is PROG_LEN; `PC` is
PROG_LEN and `A`, `X`, `SP`, `P` are unchanged. The reported index, the state left and the order of the sub-steps are the spec's own
decisions D7, D8 and D9 (logs 5, 6, 7). -/
def Obligations.LdaWithoutOperandIsTruncated : Prop :=
  ∀ s : State, s.ProgramOk → s.Fetches 0xA9#8 → s.pc.toNat + 1 = s.progLen →
    (∃ t : State, step s = .next t ∧
      t.observation = { s.observation with
        pc := s.pc + 1#16, fr := some (.programTruncated (s.pc + 1#16)), rs := .faulted }) ∧
    (s.pc + 1#16).toNat = s.progLen

/-- R87: TAX is the byte 0xAA; it completes in every state with `X` the prior `A` and N and Z from that value, and nothing else
changed; its step advances `PC` by 1. -/
def Obligations.TaxResult : Prop :=
  encode .tax = [0xAA#8] ∧
  (∀ s : State, exec .tax s = .next { s with x := s.a, p := updateNZ s.a s.p }) ∧
  (∀ s : State, s.Fetches 0xAA#8 → step s = .next { s with pc := s.pc + 1#16, x := s.a, p := updateNZ s.a s.p })

/-- R88: INX is the byte 0xE8; it completes in every state with `X` taking `(X + 1) mod 2^8` and N and Z from the new value, and nothing
else changed, C and V among it; its step advances `PC` by 1. -/
def Obligations.InxResult : Prop :=
  encode .inx = [0xE8#8] ∧
  (∀ (s : State) (v : Byte), v = BitVec.ofNat 8 ((s.x.toNat + 1) % 2 ^ 8) →
    exec .inx s = .next { s with x := v, p := updateNZ v s.p } ∧
    readFlag .carry (updateNZ v s.p) = readFlag .carry s.p ∧
    readFlag .overflow (updateNZ v s.p) = readFlag .overflow s.p) ∧
  (∀ (s : State) (v : Byte), v = BitVec.ofNat 8 ((s.x.toNat + 1) % 2 ^ 8) → s.Fetches 0xE8#8 →
    step s = .next { s with pc := s.pc + 1#16, x := v, p := updateNZ v s.p })

/-- R90 and R78: BRK is the byte 0x00; it completes in every state with `RS` HALTED and nothing else changed; its step leaves `PC` at
fetch_pc + 1, also at the last index, where that is PROG_LEN; no other program byte is read, since the step is the same whatever
program holds the 0x00 at `PC`; and it is the only way a step of a run halts. -/
def Obligations.BrkHalts : Prop :=
  encode .brk = [0x00#8] ∧
  (∀ s : State, exec .brk s = .next { s with rs := .halted }) ∧
  (∀ s : State, s.Fetches 0x00#8 →
    (∃ t : State, step s = .next t ∧ t.observation = { s.observation with pc := s.pc + 1#16, rs := .halted }) ∧
    (∀ other : Memory, other.byteAt s.pc.toNat = some 0x00#8 → step { s with prog := other } = step s) ∧
    (s.ProgramOk → s.pc.toNat + 1 = s.progLen → (s.pc + 1#16).toNat = s.progLen)) ∧
  (∀ s t : State, s.rs = .running → step s = .next t → t.rs = .halted → s.Fetches 0x00#8)

/-- What every instruction leaves unchanged: `SP`, `FR` and every byte of the program (no form stores); every bit of `P` but Z and N,
and all of `P` for BRK; `A` but for LDA; `X` but for TAX and INX; `RS` but for BRK. `PC` may change. -/
def Obligations.FrameOfInstructions : Prop :=
  ∀ (i : Instr) (s t : State), exec i s = .next t →
    t.sp = s.sp ∧ t.fr = s.fr ∧ t.progLen = s.progLen ∧
    (∀ addr : Nat, t.prog.byteAt addr = s.prog.byteAt addr) ∧
    (∀ j : Nat, j ≠ Flag.zero.bit → j ≠ Flag.negative.bit → t.p.getLsbD j = s.p.getLsbD j) ∧
    (i = .brk → t.p = s.p) ∧
    ((∀ v : Byte, i ≠ .lda v) → t.a = s.a) ∧
    (i ≠ .tax → i ≠ .inx → t.x = s.x) ∧
    (i ≠ .brk → t.rs = s.rs)

/-! ## Fetch, decode and the loop -/

/-- R65, R77 and R93: each of the 252 other opcode values decodes to nothing, and a step that fetches one raises UnimplementedOpcode
(cause 1) with the byte and the index it was fetched at; `PC` is left one past it and nothing else changes. -/
def Obligations.IllegalOpcodeFaults : Prop :=
  ∀ op : Byte, op ≠ 0x00#8 → op ≠ 0xA9#8 → op ≠ 0xAA#8 → op ≠ 0xE8#8 →
    (∀ rest : List Byte, decode (op :: rest) = .error (.unimplementedOpcode op)) ∧
    (∀ s : State, s.Fetches op →
      ∃ t : State, step s = .next t ∧
        t.observation = { s.observation with
          pc := s.pc + 1#16, fr := some (.unimplementedOpcode op s.pc), rs := .faulted }) ∧
    (∀ pc : Addr, FaultRecord.cause (some (.unimplementedOpcode op pc)) = 1#2)

/-- R73: an opcode fetch at or past PROG_LEN raises ProgramTruncated with `PC` and changes no register; in a run, where `PC` is at most
PROG_LEN, that is at `PC` = PROG_LEN. -/
def Obligations.FetchPastEndIsTruncated : Prop :=
  ∀ s : State, s.ProgramOk → s.rs = .running → s.progLen ≤ s.pc.toNat →
    (∃ t : State, step s = .next t ∧
      t.observation = { s.observation with fr := some (.programTruncated s.pc), rs := .faulted }) ∧
    (s.Inv → s.pc.toNat = s.progLen)

/-- R75: `PC` advances by 1 after each successful program byte read, once for the opcode and once more for LDA's operand, and by nothing
after a failed read; START sets it to 0; the result never exceeds PROG_LEN and never wraps. -/
def Obligations.ProgramCounterIncrement : Prop :=
  (∀ (s t : State) (prog : List Byte), command (.start prog) s = .next t → t.pc = 0x0000#16) ∧
  (∀ s t : State, s.Inv → s.rs = .running → step s = .next t →
    t.pc.toNat ≤ s.progLen ∧
    (s.prog.byteAt s.pc.toNat = none → t.pc.toNat = s.pc.toNat) ∧
    (∀ op : Byte, s.prog.byteAt s.pc.toNat = some op → op ≠ 0xA9#8 → t.pc.toNat = s.pc.toNat + 1) ∧
    (s.prog.byteAt s.pc.toNat = some 0xA9#8 → s.prog.byteAt (s.pc.toNat + 1) = none → t.pc.toNat = s.pc.toNat + 1) ∧
    (∀ v : Byte, s.prog.byteAt s.pc.toNat = some 0xA9#8 → s.prog.byteAt (s.pc.toNat + 1) = some v →
      t.pc.toNat = s.pc.toNat + 2))

/-- R70: while `RS` is RUNNING the loop steps on; the only normal end is BRK and the only other end is a fault: a fetch past the end,
an opcode that is none of the four, or an LDA whose operand is missing. -/
def Obligations.OnlyBrkOrFaultEndsRun : Prop :=
  ∀ s : State, s.ProgramOk → s.rs = .running → ∃ t : State, step s = .next t ∧ t.rs ≠ .idle ∧
    (t.rs = .halted ↔ s.prog.byteAt s.pc.toNat = some 0x00#8) ∧
    (t.rs = .faulted ↔
      s.progLen ≤ s.pc.toNat ∨
      (∃ op : Byte, s.prog.byteAt s.pc.toNat = some op ∧ op ∉ [0x00#8, 0xA9#8, 0xAA#8, 0xE8#8]) ∨
      (s.prog.byteAt s.pc.toNat = some 0xA9#8 ∧ s.pc.toNat + 1 = s.progLen))

/-- When `RS` is IDLE, HALTED or FAULTED, so also after a BRK, the block takes no step and changes no state (D4, D19). That `step` then
answers the state itself, and the exact reference does too, is the model's reading (log 2). -/
def Obligations.NoStepOutsideRun : Prop :=
  ∀ s : State, s.rs ≠ .running → step s = .next s ∧
    ∀ prog : List Byte, Reference.next prog (Reference.ofState s) = Reference.ofState s

/-- `step` never answers a fault or a refusal of the model: a step of a run has no condition but its two recorded faults, which are next
states (log 4), and outside a run, where the block takes no step (D4), `step` answers the state itself by the model's reading
(log 2). -/
def Obligations.EveryStepHasNextState : Prop :=
  ∀ s : State, ∃ t : State, step s = .next t

/-- A step of a run is the meaning of the instruction that stands at `PC`, in the state with `PC` moved past the opcode byte; around it
the step adds only the release of the run's program where the instruction ended the run (log 1). -/
def Obligations.StepRunsDecodedInstruction : Prop :=
  ∀ (s : State) (i : Instr) (rest : List Byte), s.ProgramOk → s.rs = .running →
    decode (s.prog.bytes.drop s.pc.toNat) = .ok (i, rest) →
    ∃ t : State, exec i { s with pc := s.pc + 1#16 } = .next t ∧
      step s = .next { t with prog := if t.rs = .running then t.prog else [] }

/-- Sequential flow: a step that does not end the run consumes exactly the bytes of the instruction at `PC`, and the next one stands
right behind it, so that no byte is read twice. -/
def Obligations.StepConsumesItsInstruction : Prop :=
  ∀ s t : State, s.Inv → s.rs = .running → step s = .next t → t.rs = .running →
    ∃ i : Instr, decode (s.prog.bytes.drop s.pc.toNat) = .ok (i, s.prog.bytes.drop t.pc.toNat) ∧
      t.pc.toNat = s.pc.toNat + (encode i).length ∧ s.pc.toNat < t.pc.toNat

/-- R79: the step, enabled in a run, is the spec's pseudocode computed with exact arithmetic on the program's bytes, whatever the program
and wherever `PC` is. In particular the 16-bit program counter never wraps. (Outside a run: NoStepOutsideRun.) -/
def Obligations.RefinesExactReference : Prop :=
  ∀ s : State, s.ProgramOk → s.rs = .running → ∃ t : State, step s = .next t ∧
    Reference.ofState t = Reference.next s.prog.bytes (Reference.ofState s)

/-! ## Encoding -/

/-- R63: the opcode map has exactly four entries, with these mnemonics, formats and lengths. -/
def Obligations.OpcodeMapExactlyFour : Prop :=
  (decodeOpcode 0x00#8 = some .brk ∧ Opcode.brk.format = .impl ∧ Instr.length .brk = 1) ∧
  (decodeOpcode 0xA9#8 = some .lda ∧ Opcode.lda.format = .imm8 ∧ ∀ v : Byte, Instr.length (.lda v) = 2) ∧
  (decodeOpcode 0xAA#8 = some .tax ∧ Opcode.tax.format = .impl ∧ Instr.length .tax = 1) ∧
  (decodeOpcode 0xE8#8 = some .inx ∧ Opcode.inx.format = .impl ∧ Instr.length .inx = 1) ∧
  (∀ op : Byte, decodeOpcode op = none ↔ op ∉ [0x00#8, 0xA9#8, 0xAA#8, 0xE8#8])

/-- R67: the bytes A9 05 are LDA #0x05, and A9 05 AA E8 00 are LDA #0x05, TAX, INX, BRK in sequence. -/
def Obligations.WorkedEncodingDecodes : Prop :=
  decode [0xA9#8, 0x05#8] = .ok (.lda 0x05#8, []) ∧
  decode [0xA9#8, 0x05#8, 0xAA#8, 0xE8#8, 0x00#8] = .ok (.lda 0x05#8, [0xAA#8, 0xE8#8, 0x00#8]) ∧
  decode [0xAA#8, 0xE8#8, 0x00#8] = .ok (.tax, [0xE8#8, 0x00#8]) ∧
  decode [0xE8#8, 0x00#8] = .ok (.inx, [0x00#8]) ∧
  decode [0x00#8] = .ok (.brk, [])

/-- Decode and encode agree for every instruction, every operand and whatever follows: a sequence decodes to an instruction and a rest
exactly when it is the instruction's encoding followed by that rest. -/
def Obligations.DecodeEncodeAgree : Prop :=
  ∀ (bytes : List Byte) (i : Instr) (rest : List Byte), decode bytes = .ok (i, rest) ↔ bytes = encode i ++ rest

/-! ## Memory -/

/-- R42: after an accepted START the program buffer holds the byte given at each index from 0 to PROG_LEN - 1 and nothing at PROG_LEN
and above, with PROG_LEN at most 0xFFFF. -/
def Obligations.LoadedProgramHoldsItsBytes : Prop :=
  ∀ (s t : State) (prog : List Byte), command (.start prog) s = .next t →
    t.progLen = prog.length ∧ t.progLen ≤ 0xFFFF ∧ ∀ i : Nat, t.prog.byteAt i = prog[i]?

/-- The one read is bounds-checked: at or past PROG_LEN it raises ProgramTruncated with the index of the failed read (D7, log 5), below
it returns the program byte of that index. -/
def Obligations.MemReadBoundsChecked : Prop :=
  ∀ (s : State) (addr : Addr), s.ProgramOk →
    (s.progLen ≤ addr.toNat → memRead s addr = .error (.programTruncated addr)) ∧
    (addr.toNat < s.progLen → ∃ b : Byte, s.prog.bytes[addr.toNat]? = some b ∧ memRead s addr = .ok b)

/-- R39: the program is the run's and not the block's. START supplies it, whatever was before; it is read-only for the run; the step
that ends the run leaves none; and in no state a host can reach is there a program outside a run. It stands in the model's field `prog`
meanwhile (log 1). -/
def Obligations.ProgramOnlyDuringRun : Prop :=
  (∀ (s t : State) (prog : List Byte), command (.start prog) s = .next t → t.prog.bytes = prog) ∧
  (∀ s t : State, s.rs = .running → step s = .next t →
    (t.rs = .running → t.prog = s.prog) ∧ (t.rs ≠ .running → t.prog = [])) ∧
  (∀ s : State, Reachable s → s.rs ≠ .running → s.prog = [])

/-- Outside a run nothing the host can do or read depends on the model's field for the program (log 1), whatever it holds, and a START
forgets it. That a step there answers the state itself is the model's reading (log 2). -/
def Obligations.ProgramNotRetained : Prop :=
  ∀ (s : State) (old : Memory), s.rs ≠ .running →
    hostRead { s with prog := old } = hostRead s ∧
    step { s with prog := old } = .next { s with prog := old } ∧
    (∀ prog : List Byte, command (.start prog) { s with prog := old } = command (.start prog) s) ∧
    (∀ (c : HostCommand) (t : State), command c s = .next t →
      ∃ u : State, command c { s with prog := old } = .next u ∧ u.observation = t.observation)

/-! ## Faults -/

/-- The state every fault leaves: `A`, `X`, `SP` and `P` are unchanged, and `PC` and the fields of `FR` are those of the three rows of
the spec's table. They rest on the spec's own decisions D7 and D8 (logs 5, 6). -/
def Obligations.FaultedStepLeaves : Prop :=
  ∀ s t : State, s.Inv → s.rs = .running → step s = .next t → t.rs = .faulted →
    t.a = s.a ∧ t.x = s.x ∧ t.sp = s.sp ∧ t.p = s.p ∧
    ((s.pc.toNat = s.progLen ∧ t.pc = s.pc ∧
        FaultRecord.cause t.fr = 2#2 ∧ FaultRecord.opcode t.fr = 0x00#8 ∧ FaultRecord.pc t.fr = s.pc) ∨
      (s.Fetches 0xA9#8 ∧ s.pc.toNat + 1 = s.progLen ∧ t.pc.toNat = s.progLen ∧
        FaultRecord.cause t.fr = 2#2 ∧ FaultRecord.opcode t.fr = 0x00#8 ∧ (FaultRecord.pc t.fr).toNat = s.progLen) ∨
      (∃ op : Byte, s.Fetches op ∧ op ∉ [0x00#8, 0xA9#8, 0xAA#8, 0xE8#8] ∧ t.pc.toNat = s.pc.toNat + 1 ∧
        FaultRecord.cause t.fr = 1#2 ∧ FaultRecord.opcode t.fr = op ∧ FaultRecord.pc t.fr = s.pc))

/-- The codes of `RS` and the fields of `FR` (the spec's own choice, D5 and D6, log 8), and that the fields carry the whole record. -/
def Obligations.EncodingsOfRunStateAndRecord : Prop :=
  (RunState.code .idle = 0#2 ∧ RunState.code .running = 1#2 ∧ RunState.code .halted = 2#2 ∧ RunState.code .faulted = 3#2) ∧
  (FaultRecord.cause none = 0#2 ∧ FaultRecord.opcode none = 0x00#8 ∧ FaultRecord.pc none = 0x0000#16) ∧
  (∀ (op : Byte) (pc : Addr), FaultRecord.cause (some (.unimplementedOpcode op pc)) = 1#2 ∧
    FaultRecord.opcode (some (.unimplementedOpcode op pc)) = op ∧ FaultRecord.pc (some (.unimplementedOpcode op pc)) = pc) ∧
  (∀ pc : Addr, FaultRecord.cause (some (.programTruncated pc)) = 2#2 ∧
    FaultRecord.opcode (some (.programTruncated pc)) = 0x00#8 ∧ FaultRecord.pc (some (.programTruncated pc)) = pc) ∧
  (∀ f g : FaultRecord, FaultRecord.cause f = FaultRecord.cause g → FaultRecord.opcode f = FaultRecord.opcode g →
    FaultRecord.pc f = FaultRecord.pc g → f = g)

/-- `FR` and `RS` keep a fault through reads and flag commands until the next START or a new construction (D20, log 13), and through
`step`, which answers the state itself outside a run by the model's reading (log 2). -/
def Obligations.FaultRecordLifetime : Prop :=
  ∀ s : State, s.rs = .faulted →
    (∃ t : State, step s = .next t ∧ t.fr = s.fr ∧ t.rs = .faulted) ∧
    (∀ c : HostCommand, c ≠ .construct → (∀ prog : List Byte, c ≠ .start prog) →
      ∃ t : State, command c s = .next t ∧ t.fr = s.fr ∧ t.rs = .faulted) ∧
    (∀ prog : List Byte, prog.length ≤ 0xFFFF → ∃ t : State, command (.start prog) s = .next t ∧ t.fr = none) ∧
    (∃ t : State, command .construct s = .next t ∧ t.fr = none)

/-! ## Host interface -/

/-- R72, R84 and R116: a START outside a run sets `PC` to 0 wherever the last run left it, `FR` to none and `RS` to RUNNING on the new
program, and leaves `A`, `X`, `SP` and `P` as they were; a run starts only when `RS` is not RUNNING and PROG_LEN is at most 0xFFFF. -/
def Obligations.StartBeginsRun : Prop :=
  (∀ (s : State) (prog : List Byte), s.rs ≠ .running → prog.length ≤ 0xFFFF →
    ∃ t : State, command (.start prog) s = .next t ∧
      t.pc = 0x0000#16 ∧ t.fr = none ∧ t.rs = .running ∧ t.prog.bytes = prog ∧
      t.a = s.a ∧ t.x = s.x ∧ t.sp = s.sp ∧ t.p = s.p) ∧
  (∀ (s t : State) (prog : List Byte), command (.start prog) s = .next t → s.rs ≠ .running ∧ prog.length ≤ 0xFFFF)

/-- Which commands are refused, and as what: every command but CONSTRUCT while a run is in progress, and a START of more than 0xFFFF
bytes (D3, D10, D12, D13). Which reason a START names that is refused on both grounds is the model's choice (log 10). -/
def Obligations.CommandsRefused : Prop :=
  (∀ (s : State) (c : HostCommand), s.rs = .running → c ≠ .construct → command c s = .refused .runInProgress) ∧
  (∀ s : State, s.rs = .running → hostRead s = .refused .runInProgress) ∧
  (∀ (s : State) (prog : List Byte), s.rs ≠ .running → 0xFFFF < prog.length →
    command (.start prog) s = .refused .programTooLong) ∧
  (∀ s : State, s.rs = .running → ∃ t : State, command .construct s = .next t)

/-- READ outside a run returns `A`, `X`, `SP`, `P`, `PC`, `RS` and `FR` and changes nothing (D12). -/
def Obligations.ReadReturnsObservation : Prop :=
  ∀ s : State, s.rs ≠ .running →
    hostRead s = .next { a := s.a, x := s.x, sp := s.sp, p := s.p, pc := s.pc, rs := s.rs, fr := s.fr } ∧
    command .read s = .next s

/-- UPDATE_N, UPDATE_Z and UPDATE_NZ outside a run apply the helper of that name to `P` and change nothing else (D13). -/
def Obligations.FlagCommandsWriteStatusOnly : Prop :=
  ∀ (s : State) (r : Byte), s.rs ≠ .running →
    command (.updateN r) s = .next { s with p := updateN r s.p } ∧
    command (.updateZ r) s = .next { s with p := updateZ r s.p } ∧
    command (.updateNZ r) s = .next { s with p := updateNZ r s.p }

/-- The host writes no register directly: but for a new construction, no command changes `A`, `X` or `SP`, only the flag commands change
`P`, and `PC` is changed by START alone, to 0 (D14). -/
def Obligations.HostWritesNoRegister : Prop :=
  ∀ (s t : State) (c : HostCommand), c ≠ .construct → command c s = .next t →
    t.a = s.a ∧ t.x = s.x ∧ t.sp = s.sp ∧
    (t.p = s.p ∨ ∃ r : Byte, c = .updateN r ∨ c = .updateZ r ∨ c = .updateNZ r) ∧
    (t.pc = s.pc ∨ ∃ prog : List Byte, c = .start prog ∧ t.pc = 0x0000#16)

/-! ## Whole-machine rules -/

/-- No step reads `P` or `SP`: two states that differ in these alone step to states that differ in these alone, and `SP` itself is
carried through. (Outside a run `step` answers the state itself, log 2.) -/
def Obligations.StatusAndStackPointerNeverRead : Prop :=
  ∀ (s t : State) (q z : Byte), step s = .next t →
    ∃ u : State, step { s with p := q, sp := z } = .next u ∧ u.sp = z ∧ { u with p := t.p, sp := t.sp } = t

/-- The invariant holds right after construction. -/
def Obligations.ResetMeetsInvariant : Prop := State.reset.Inv

/-- Every step keeps the invariant, from every state that meets it: the program stays canonical and short enough, `PC` stays within it
while the run goes on, there is no program outside a run, `SP` and the bits of `P` other than N and Z stay 0, and `FR` is a record exactly when `RS` is FAULTED.
(Outside a run `step` answers the state itself, log 2.) -/
def Obligations.StepKeepsInvariant : Prop :=
  ∀ s t : State, s.Inv → step s = .next t → t.Inv

/-- Every accepted host command keeps the invariant. -/
def Obligations.CommandKeepsInvariant : Prop :=
  ∀ (s t : State) (c : HostCommand), s.Inv → command c s = .next t → t.Inv

/-- Every state a host can reach, by any programs and any commands, meets the invariant. -/
def Obligations.ReachableStatesMeetInvariant : Prop :=
  ∀ s : State, Reachable s → s.Inv

/-- The values `P` takes: 0x00, 0x02 and 0x80 by runs alone; 0x82 besides with the host's flag commands, and it is reached; no other. -/
def Obligations.StatusValuesOfReachableStates : Prop :=
  (∀ s : State, ReachableByRuns s → s.StatusOfRuns) ∧
  (∀ s : State, Reachable s → s.StatusOfRuns ∨ s.p = 0x82#8) ∧
  (∃ s : State, Reachable s ∧ s.p = 0x82#8)

/-- R24: bits 4 and 5 of `P` hold 0 at construction, no operation of the block writes them, and they read 0 at all times. -/
def Obligations.UnusedStatusBitsStayZero : Prop :=
  (State.reset.p.getLsbD 4 = false ∧ State.reset.p.getLsbD 5 = false) ∧
  (∀ s t : State, s.rs = .running → step s = .next t → t.p.getLsbD 4 = s.p.getLsbD 4 ∧ t.p.getLsbD 5 = s.p.getLsbD 5) ∧
  (∀ (s t : State) (c : HostCommand), c ≠ .construct → command c s = .next t →
    t.p.getLsbD 4 = s.p.getLsbD 4 ∧ t.p.getLsbD 5 = s.p.getLsbD 5) ∧
  (∀ s : State, Reachable s → s.p.getLsbD 4 = false ∧ s.p.getLsbD 5 = false)

/-- Every run ends: from a state of a run, within one step for each program byte left and one more. -/
def Obligations.EveryRunEnds : Prop :=
  ∀ s : State, s.Inv → s.rs = .running →
    ∃ (k : Nat) (t : State), k ≤ s.progLen - s.pc.toNat + 1 ∧ Host.Core.run core k s = .next t ∧ t.Ended

/-- `run(program)` outside a run, with a program of at most 0xFFFF bytes, ends: it returns normally when HALTED and reports `FR` when
FAULTED, and `SP` is as it was (D23). `runProgram` makes PROG_LEN + 1 steps, and those after the run's end leave the state (log 2). -/
def Obligations.RunProgramEndsAndReports : Prop :=
  ∀ (s : State) (prog : List Byte), s.rs ≠ .running → prog.length ≤ 0xFFFF →
    ∃ t : State, runProgram prog s = .next t ∧ t.sp = s.sp ∧
      ((t.rs = .halted ∧ t.fr = none ∧ t.runEnd = some .returned) ∨
        (t.rs = .faulted ∧ ∃ c : FatalCondition, t.fr = some c ∧ t.runEnd = some (.reported (some c))))
end

