-- ==== Sys2Proof/Laws/Decode.lean ====
section
/-! SUPPORT. What the opcode map and the decoder answer. -/

namespace Sys2Proof

/-- All that an opcode byte can select: one of the four rows, or nothing. -/
theorem decodeOpcode_cases (op : Byte) :
    (op = 0x00#8 ∧ decodeOpcode op = some .brk) ∨ (op = 0xA9#8 ∧ decodeOpcode op = some .lda) ∨
    (op = 0xAA#8 ∧ decodeOpcode op = some .tax) ∨ (op = 0xE8#8 ∧ decodeOpcode op = some .inx) ∨
    (op ≠ 0x00#8 ∧ op ≠ 0xA9#8 ∧ op ≠ 0xAA#8 ∧ op ≠ 0xE8#8 ∧ decodeOpcode op = none) := by
  by_cases h0 : op = 0x00#8
  · exact .inl ⟨h0, by subst h0; decide⟩
  by_cases h1 : op = 0xA9#8
  · exact .inr (.inl ⟨h1, by subst h1; decide⟩)
  by_cases h2 : op = 0xAA#8
  · exact .inr (.inr (.inl ⟨h2, by subst h2; decide⟩))
  by_cases h3 : op = 0xE8#8
  · exact .inr (.inr (.inr (.inl ⟨h3, by subst h3; decide⟩)))
  · refine .inr (.inr (.inr (.inr ⟨h0, h1, h2, h3, ?_⟩)))
    simp only [decodeOpcode, opcodeMap, List.lookup_cons, List.lookup_nil, beq_eq_false_iff_ne.2 h0,
      beq_eq_false_iff_ne.2 h1, beq_eq_false_iff_ne.2 h2, beq_eq_false_iff_ne.2 h3]

/-- The opcode byte of a row selects that row. -/
@[simp] theorem decodeOpcode_opcodeByte (o : Opcode) : decodeOpcode (opcodeByte o) = some o := by
  cases o <;> decide

/-- What decoding a sequence that starts with an opcode byte comes to, by the row. -/
theorem decode_cons (op : Byte) (rest : List Byte) :
    decode (op :: rest) =
      match decodeOpcode op with
      | none => .error (.unimplementedOpcode op)
      | some .brk => .ok (.brk, rest)
      | some .tax => .ok (.tax, rest)
      | some .inx => .ok (.inx, rest)
      | some .lda =>
        match rest with
        | [] => .error .noOperand
        | imm :: rest' => .ok (.lda imm, rest') := rfl

end Sys2Proof
end

