-- ==== Sys2Proof/Laws/Flags.lean ====
section
/-! SUPPORT. What the flag computations do to each bit of `P`. -/

namespace Sys2Proof.Machine

/-- Writing a bit writes that bit and no other. -/
theorem setBit_getLsbD (v : Byte) (i j : Nat) (b : Bool) (hi : i < 8) :
    (setBit v i b).getLsbD j = if j = i then b else v.getLsbD j := by
  unfold setBit
  cases b <;> by_cases h : j = i <;> (simp_all [BitVec.getLsbD_shiftLeft]; try grind)

/-- Each bit of `P` after UpdateNZ. -/
theorem updateNZ_getLsbD (r p : Byte) (j : Nat) :
    (updateNZ r p).getLsbD j = if j = 1 then r == 0x00#8 else if j = 7 then r.getLsbD 7 else p.getLsbD j := by
  simp only [updateNZ, updateZ, updateN, Flag.bit, setBit_getLsbD _ _ _ _ (by decide : 1 < 8),
    setBit_getLsbD _ _ _ _ (by decide : 7 < 8)]

theorem readFlag_zero_updateNZ (r p : Byte) : readFlag .zero (updateNZ r p) = (r == 0x00#8) :=
  (updateNZ_getLsbD r p 1).trans (if_pos rfl)

theorem readFlag_negative_updateNZ (r p : Byte) : readFlag .negative (updateNZ r p) = r.getLsbD 7 :=
  (updateNZ_getLsbD r p 7).trans ((if_neg (by decide)).trans (if_pos rfl))

/-- UpdateNZ leaves every other flag as it was. -/
theorem readFlag_updateNZ_of_ne (f : Flag) (r p : Byte) (hz : f ≠ .zero) (hn : f ≠ .negative) :
    readFlag f (updateNZ r p) = readFlag f p := by
  unfold readFlag
  rw [updateNZ_getLsbD]
  cases f <;> first | rfl | contradiction

/-- UpdateN never touches the bits of the mask 0x7D. -/
theorem updateN_mask (r p : Byte) : updateN r p &&& 0x7D#8 = p &&& 0x7D#8 := by
  unfold updateN setBit Flag.bit
  split <;> (ext j hj; rcases j with _ | _ | _ | _ | _ | _ | _ | _ | j <;> simp at hj ⊢; try omega)

/-- UpdateZ never touches the bits of the mask 0x7D. -/
theorem updateZ_mask (r p : Byte) : updateZ r p &&& 0x7D#8 = p &&& 0x7D#8 := by
  unfold updateZ setBit Flag.bit
  split <;> (ext j hj; rcases j with _ | _ | _ | _ | _ | _ | _ | _ | j <;> simp at hj ⊢; try omega)

/-- UpdateNZ never touches the bits of the mask 0x7D. -/
theorem updateNZ_mask (r p : Byte) : updateNZ r p &&& 0x7D#8 = p &&& 0x7D#8 := by
  rw [updateNZ, updateZ_mask, updateN_mask]

end Sys2Proof.Machine
end

