-- ==== Sys2Proof/Laws/State.lean ====
section
/-! SUPPORT. One lemma per field per state operation, so that no later proof unfolds a record update. -/

namespace Sys2Proof.Machine.State

variable (s : State)

@[simp] theorem setPc_pc (v : Addr) : (s.setPc v).pc = v := rfl
@[simp] theorem setPc_a (v : Addr) : (s.setPc v).a = s.a := rfl
@[simp] theorem setPc_x (v : Addr) : (s.setPc v).x = s.x := rfl
@[simp] theorem setPc_sp (v : Addr) : (s.setPc v).sp = s.sp := rfl
@[simp] theorem setPc_p (v : Addr) : (s.setPc v).p = s.p := rfl
@[simp] theorem setPc_rs (v : Addr) : (s.setPc v).rs = s.rs := rfl
@[simp] theorem setPc_fr (v : Addr) : (s.setPc v).fr = s.fr := rfl
@[simp] theorem setPc_prog (v : Addr) : (s.setPc v).prog = s.prog := rfl

@[simp] theorem setA_pc (v : Byte) : (s.setA v).pc = s.pc := rfl
@[simp] theorem setA_a (v : Byte) : (s.setA v).a = v := rfl
@[simp] theorem setA_x (v : Byte) : (s.setA v).x = s.x := rfl
@[simp] theorem setA_sp (v : Byte) : (s.setA v).sp = s.sp := rfl
@[simp] theorem setA_p (v : Byte) : (s.setA v).p = s.p := rfl
@[simp] theorem setA_rs (v : Byte) : (s.setA v).rs = s.rs := rfl
@[simp] theorem setA_fr (v : Byte) : (s.setA v).fr = s.fr := rfl
@[simp] theorem setA_prog (v : Byte) : (s.setA v).prog = s.prog := rfl

@[simp] theorem setX_pc (v : Byte) : (s.setX v).pc = s.pc := rfl
@[simp] theorem setX_a (v : Byte) : (s.setX v).a = s.a := rfl
@[simp] theorem setX_x (v : Byte) : (s.setX v).x = v := rfl
@[simp] theorem setX_sp (v : Byte) : (s.setX v).sp = s.sp := rfl
@[simp] theorem setX_p (v : Byte) : (s.setX v).p = s.p := rfl
@[simp] theorem setX_rs (v : Byte) : (s.setX v).rs = s.rs := rfl
@[simp] theorem setX_fr (v : Byte) : (s.setX v).fr = s.fr := rfl
@[simp] theorem setX_prog (v : Byte) : (s.setX v).prog = s.prog := rfl

@[simp] theorem setP_pc (v : Byte) : (s.setP v).pc = s.pc := rfl
@[simp] theorem setP_a (v : Byte) : (s.setP v).a = s.a := rfl
@[simp] theorem setP_x (v : Byte) : (s.setP v).x = s.x := rfl
@[simp] theorem setP_sp (v : Byte) : (s.setP v).sp = s.sp := rfl
@[simp] theorem setP_p (v : Byte) : (s.setP v).p = v := rfl
@[simp] theorem setP_rs (v : Byte) : (s.setP v).rs = s.rs := rfl
@[simp] theorem setP_fr (v : Byte) : (s.setP v).fr = s.fr := rfl
@[simp] theorem setP_prog (v : Byte) : (s.setP v).prog = s.prog := rfl

@[simp] theorem applyNZ_pc (r : Byte) : (s.applyNZ r).pc = s.pc := rfl
@[simp] theorem applyNZ_a (r : Byte) : (s.applyNZ r).a = s.a := rfl
@[simp] theorem applyNZ_x (r : Byte) : (s.applyNZ r).x = s.x := rfl
@[simp] theorem applyNZ_sp (r : Byte) : (s.applyNZ r).sp = s.sp := rfl
@[simp] theorem applyNZ_p (r : Byte) : (s.applyNZ r).p = updateNZ r s.p := rfl
@[simp] theorem applyNZ_rs (r : Byte) : (s.applyNZ r).rs = s.rs := rfl
@[simp] theorem applyNZ_fr (r : Byte) : (s.applyNZ r).fr = s.fr := rfl
@[simp] theorem applyNZ_prog (r : Byte) : (s.applyNZ r).prog = s.prog := rfl

@[simp] theorem advancePc_pc : (s.advancePc).pc = s.pc + 1#16 := rfl
@[simp] theorem advancePc_a : (s.advancePc).a = s.a := rfl
@[simp] theorem advancePc_x : (s.advancePc).x = s.x := rfl
@[simp] theorem advancePc_sp : (s.advancePc).sp = s.sp := rfl
@[simp] theorem advancePc_p : (s.advancePc).p = s.p := rfl
@[simp] theorem advancePc_rs : (s.advancePc).rs = s.rs := rfl
@[simp] theorem advancePc_fr : (s.advancePc).fr = s.fr := rfl
@[simp] theorem advancePc_prog : (s.advancePc).prog = s.prog := rfl

@[simp] theorem raise_pc (c : FatalCondition) : (s.raise c).pc = s.pc := rfl
@[simp] theorem raise_a (c : FatalCondition) : (s.raise c).a = s.a := rfl
@[simp] theorem raise_x (c : FatalCondition) : (s.raise c).x = s.x := rfl
@[simp] theorem raise_sp (c : FatalCondition) : (s.raise c).sp = s.sp := rfl
@[simp] theorem raise_p (c : FatalCondition) : (s.raise c).p = s.p := rfl
@[simp] theorem raise_rs (c : FatalCondition) : (s.raise c).rs = .faulted := rfl
@[simp] theorem raise_fr (c : FatalCondition) : (s.raise c).fr = some c := rfl
@[simp] theorem raise_prog (c : FatalCondition) : (s.raise c).prog = s.prog := rfl

@[simp] theorem halt_pc : (s.halt).pc = s.pc := rfl
@[simp] theorem halt_a : (s.halt).a = s.a := rfl
@[simp] theorem halt_x : (s.halt).x = s.x := rfl
@[simp] theorem halt_sp : (s.halt).sp = s.sp := rfl
@[simp] theorem halt_p : (s.halt).p = s.p := rfl
@[simp] theorem halt_rs : (s.halt).rs = .halted := rfl
@[simp] theorem halt_fr : (s.halt).fr = s.fr := rfl
@[simp] theorem halt_prog : (s.halt).prog = s.prog := rfl

@[simp] theorem beginRun_pc (bs : List Byte) : (s.beginRun bs).pc = Config.entryPc := rfl
@[simp] theorem beginRun_a (bs : List Byte) : (s.beginRun bs).a = s.a := rfl
@[simp] theorem beginRun_x (bs : List Byte) : (s.beginRun bs).x = s.x := rfl
@[simp] theorem beginRun_sp (bs : List Byte) : (s.beginRun bs).sp = s.sp := rfl
@[simp] theorem beginRun_p (bs : List Byte) : (s.beginRun bs).p = s.p := rfl
@[simp] theorem beginRun_rs (bs : List Byte) : (s.beginRun bs).rs = .running := rfl
@[simp] theorem beginRun_fr (bs : List Byte) : (s.beginRun bs).fr = none := rfl
@[simp] theorem beginRun_prog (bs : List Byte) : (s.beginRun bs).prog = Memory.ofBytes bs := rfl

@[simp] theorem releaseProgram_pc : s.releaseProgram.pc = s.pc := rfl
@[simp] theorem releaseProgram_a : s.releaseProgram.a = s.a := rfl
@[simp] theorem releaseProgram_x : s.releaseProgram.x = s.x := rfl
@[simp] theorem releaseProgram_sp : s.releaseProgram.sp = s.sp := rfl
@[simp] theorem releaseProgram_p : s.releaseProgram.p = s.p := rfl
@[simp] theorem releaseProgram_rs : s.releaseProgram.rs = s.rs := rfl
@[simp] theorem releaseProgram_fr : s.releaseProgram.fr = s.fr := rfl
@[simp] theorem releaseProgram_prog : s.releaseProgram.prog = if s.rs = .running then s.prog else [] := rfl

/-- While the run goes on its program stays. -/
theorem releaseProgram_of_running (h : s.rs = .running) : s.releaseProgram = s := by
  rw [releaseProgram, if_pos h]

/-- When the run has ended nothing of its program is left. -/
theorem releaseProgram_of_ended (h : s.rs ≠ .running) : s.releaseProgram = { s with prog := [] } := by
  rw [releaseProgram, if_neg h]

@[simp] theorem reset_pc : reset.pc = 0x0000#16 := rfl
@[simp] theorem reset_a : reset.a = 0x00#8 := rfl
@[simp] theorem reset_x : reset.x = 0x00#8 := rfl
@[simp] theorem reset_sp : reset.sp = 0x00#8 := rfl
@[simp] theorem reset_p : reset.p = 0x00#8 := rfl
@[simp] theorem reset_rs : reset.rs = .idle := rfl
@[simp] theorem reset_fr : reset.fr = none := rfl
@[simp] theorem reset_prog : reset.prog = [] := rfl

/-- `PROG_LEN` depends on the program alone. -/
theorem progLen_of_prog {s t : State} (h : t.prog = s.prog) : t.progLen = s.progLen := by
  rw [progLen, progLen, h]

end Sys2Proof.Machine.State
end

