-- ==== Sys2Proof/Laws/HostCommands.lean ====
section
/-! SUPPORT. What a host command can do, said once. -/

namespace Sys2Proof.Machine

/-- An accepted command is its effect; a refused one has no next state. -/
theorem command_next_iff (c : HostCommand) (s t : State) :
    command c s = .next t ↔ c.refusal s = none ∧ t = c.effect s := by
  unfold command
  cases c.refusal s with
  | some r => simp
  | none => simp [eq_comm]

/-- A command has no outcome but its effect and its refusal. -/
theorem command_cases (c : HostCommand) (s : State) :
    (c.refusal s = none ∧ command c s = .next (c.effect s)) ∨
    (∃ r, c.refusal s = some r ∧ command c s = .refused r) := by
  unfold command
  cases c.refusal s with
  | some r => exact .inr ⟨r, rfl, rfl⟩
  | none => exact .inl ⟨rfl, rfl⟩

/-- START is accepted exactly outside a run and with a program a run may have. -/
theorem refusal_start_iff (prog : List Byte) (s : State) :
    (HostCommand.start prog).refusal s = none ↔ s.rs ≠ .running ∧ prog.length ≤ Config.maxProgLen := by
  unfold HostCommand.refusal refusalWhileRunning programWellFormed
  by_cases hr : s.rs = .running <;> by_cases hl : prog.length ≤ Config.maxProgLen <;> simp [hr, hl]

end Sys2Proof.Machine
end

