-- ==== Sys2Proof/Laws/Instructions.lean ====
section
/-! SUPPORT. The next state of each instruction, in the named operations. -/

namespace Sys2Proof.Machine

theorem exec_brk (s : State) : exec .brk s = .next s.halt := rfl

theorem exec_lda (imm : Byte) (s : State) : exec (.lda imm) s = .next ((s.advancePc.setA imm).applyNZ imm) := rfl

theorem exec_tax (s : State) : exec .tax s = .next ((s.setX s.a).applyNZ s.a) := rfl

theorem exec_inx (s : State) :
    exec .inx s = .next ((s.setX (incrementByte s.x)).applyNZ (incrementByte s.x)) := rfl

/-- All that an instruction can do: its own next state, and nothing else. -/
theorem exec_cases {i : Instr} {s t : State} (h : exec i s = .next t) :
    (i = .brk ∧ t = s.halt) ∨
    (∃ imm, i = .lda imm ∧ t = (s.advancePc.setA imm).applyNZ imm) ∨
    (i = .tax ∧ t = (s.setX s.a).applyNZ s.a) ∨
    (i = .inx ∧ t = (s.setX (incrementByte s.x)).applyNZ (incrementByte s.x)) := by
  cases i with
  | brk => rw [exec_brk] at h; cases h; exact .inl ⟨rfl, rfl⟩
  | lda imm => rw [exec_lda] at h; cases h; exact .inr (.inl ⟨imm, rfl, rfl⟩)
  | tax => rw [exec_tax] at h; cases h; exact .inr (.inr (.inl ⟨rfl, rfl⟩))
  | inx => rw [exec_inx] at h; cases h; exact .inr (.inr (.inr ⟨rfl, rfl⟩))

end Sys2Proof.Machine
end

