-- ==== Sys2Proof/Laws/Memory.lean ====
section
/-! SUPPORT. The program buffer: its canonical form, which every operation over memory keeps, and its one read. -/

namespace Sys2Proof.Machine

namespace Memory

@[simp] theorem length_cellsFrom (bs : List Byte) (base : Nat) : (cellsFrom base bs).length = bs.length := by
  induction bs generalizing base with
  | nil => rfl
  | cons b bs ih => simp [cellsFrom, ih]

@[simp] theorem length_ofBytes (bs : List Byte) : (ofBytes bs).length = bs.length := length_cellsFrom bs 0

theorem keys_cellsFrom (bs : List Byte) (base : Nat) :
    (cellsFrom base bs).map Prod.fst = List.range' base bs.length := by
  induction bs generalizing base with
  | nil => rfl
  | cons b bs ih => simp [cellsFrom, ih, List.range'_succ]

theorem bytes_cellsFrom (bs : List Byte) (base : Nat) : (cellsFrom base bs).bytes = bs := by
  induction bs generalizing base with
  | nil => rfl
  | cons b bs ih =>
    show b :: (cellsFrom (base + 1) bs).bytes = b :: bs
    rw [ih]

/-- The loaded program is the bytes given. -/
@[simp] theorem bytes_ofBytes (bs : List Byte) : (ofBytes bs).bytes = bs := bytes_cellsFrom bs 0

theorem wf_iff (m : Memory) : m.wf = true ↔ m.map Prod.fst = List.range m.length := by
  simp [wf]

/-- The one operation that makes a memory gives a canonical one. -/
theorem wf_ofBytes (bs : List Byte) : (ofBytes bs).wf = true := by
  rw [wf_iff, length_ofBytes, List.range_eq_range']
  exact keys_cellsFrom bs 0

@[simp] theorem length_bytes (m : Memory) : m.bytes.length = m.length := by simp [bytes]

/-- A run starts on a canonical program. -/
theorem wf_beginRun (s : State) (bs : List Byte) : (s.beginRun bs).prog.wf = true := wf_ofBytes bs

/-- The memory of the reset state is canonical. -/
theorem wf_reset : State.reset.prog.wf = true := by decide

theorem byteAt_of_keys (m : Memory) (base i : Nat) (h : m.map Prod.fst = List.range' base m.length) :
    m.byteAt (base + i) = m.bytes[i]? := by
  induction m generalizing base i with
  | nil => rfl
  | cons cell m ih =>
    obtain ⟨k, b⟩ := cell
    simp only [List.map_cons, List.length_cons, List.range'_succ, List.cons.injEq] at h
    obtain ⟨rfl, h⟩ := h
    cases i with
    | zero => simp [byteAt, bytes]
    | succ i =>
      have hne : (k + (i + 1) == k) = false := by simp
      have := ih (k + 1) i h
      rw [show k + 1 + i = k + (i + 1) by omega] at this
      simpa [byteAt, bytes, hne, List.lookup_cons] using this

/-- In a canonical program buffer the byte at an index is the byte in that place. -/
theorem byteAt_of_wf {m : Memory} (h : m.wf = true) (i : Nat) : m.byteAt i = m.bytes[i]? := by
  rw [wf_iff, List.range_eq_range'] at h
  simpa using byteAt_of_keys m 0 i h

/-- A canonical program buffer holds a byte exactly at the indexes below its size. -/
theorem byteAt_eq_none_iff {m : Memory} (h : m.wf = true) (i : Nat) : m.byteAt i = none ↔ m.length ≤ i := by
  rw [byteAt_of_wf h, List.getElem?_eq_none_iff, length_bytes]

/-- A byte that is there stands below the size. -/
theorem lt_length_of_byteAt {m : Memory} (h : m.wf = true) {i : Nat} {b : Byte} (hb : m.byteAt i = some b) :
    i < m.length := by
  by_contra hge
  rw [(byteAt_eq_none_iff h i).2 (by omega)] at hb
  cases hb

end Memory

/-- All that a read can answer: the byte at the index, or ProgramTruncated with that index. -/
theorem memRead_cases (s : State) (addr : Addr) :
    (∃ b, s.prog.byteAt addr.toNat = some b ∧ memRead s addr = .ok b) ∨
    (s.prog.byteAt addr.toNat = none ∧ memRead s addr = .error (.programTruncated addr)) := by
  unfold memRead
  cases s.prog.byteAt addr.toNat with
  | none => exact .inr ⟨rfl, rfl⟩
  | some b => exact .inl ⟨b, rfl, rfl⟩

theorem memRead_ok {s : State} {addr : Addr} {b : Byte} (h : s.prog.byteAt addr.toNat = some b) :
    memRead s addr = .ok b := by
  unfold memRead
  rw [h]

theorem memRead_error {s : State} {addr : Addr} (h : s.prog.byteAt addr.toNat = none) :
    memRead s addr = .error (.programTruncated addr) := by
  unfold memRead
  rw [h]

/-- A read depends on the program alone. -/
theorem memRead_of_prog {s t : State} (h : t.prog = s.prog) (addr : Addr) : memRead t addr = memRead s addr := by
  unfold memRead
  rw [h]

end Sys2Proof.Machine
end

