-- ==== Sys2Proof/Laws/PerInstr.lean ====
section
/-! SUPPORT. What holds of every instruction as syntax, one lemma per constructor. -/

namespace Sys2Proof.Laws.EncodedLength

/-- An instruction is encoded in as many bytes as its format has, one or two (R58, R64). -/
def Statement (i : Instr) : Prop := (encode i).length = i.length ∧ 1 ≤ i.length ∧ i.length ≤ 2

theorem brk : Statement .brk := by unfold Statement; decide

theorem lda (imm : Byte) : Statement (.lda imm) := ⟨rfl, Nat.le_succ 1, Nat.le_refl 2⟩

theorem tax : Statement .tax := by unfold Statement; decide

theorem inx : Statement .inx := by unfold Statement; decide

end Sys2Proof.Laws.EncodedLength
end

