-- ==== Sys2Proof/Laws/Step.lean ====
section
/-! SUPPORT. What one step can do, said once. -/

namespace Sys2Proof.Machine

/-- Outside a run the step changes nothing. -/
theorem step_of_not_running {s : State} (h : s.rs ≠ .running) : step s = .next s := by
  unfold step loopStep
  split <;> first | rfl | exact absurd ‹_› h

/-- In a run the step is one fetch, decode and execute, and the release of the program if that ended the run. -/
theorem step_of_running {s t : State} (h : s.rs = .running) (ht : fetchDecodeExecute s = .next t) :
    step s = .next t.releaseProgram := by
  unfold step loopStep
  rw [h]
  show runStep s = _
  rw [runStep, ht]

/-- A step of a run that goes on leaves the program as it is. -/
theorem step_of_running_on {s t : State} (h : s.rs = .running) (ht : fetchDecodeExecute s = .next t) (hr : t.rs = .running) :
    step s = .next t := by
  rw [step_of_running h ht, State.releaseProgram_of_running t hr]

/-- The operand byte an immediate reads is the byte at `PC`, if there is one. -/
theorem operandBytesAt_imm8 (s : State) : operandBytesAt s .imm8 = (s.prog.byteAt s.pc.toNat).toList := by
  unfold operandBytesAt memRead
  cases s.prog.byteAt s.pc.toNat <;> rfl

/-- All that fetch, decode and execute can do. -/
theorem fetchDecodeExecute_cases (s : State) :
    (s.prog.byteAt s.pc.toNat = none ∧ fetchDecodeExecute s = .next (s.raise (.programTruncated s.pc))) ∨
    (s.prog.byteAt s.pc.toNat = some 0x00#8 ∧ fetchDecodeExecute s = .next s.advancePc.halt) ∨
    (s.prog.byteAt s.pc.toNat = some 0xA9#8 ∧ s.prog.byteAt (s.pc + 1#16).toNat = none ∧
      fetchDecodeExecute s = .next (s.advancePc.raise (.programTruncated (s.pc + 1#16)))) ∨
    (∃ v, s.prog.byteAt s.pc.toNat = some 0xA9#8 ∧ s.prog.byteAt (s.pc + 1#16).toNat = some v ∧
      fetchDecodeExecute s = .next ((s.advancePc.advancePc.setA v).applyNZ v)) ∨
    (s.prog.byteAt s.pc.toNat = some 0xAA#8 ∧ fetchDecodeExecute s = .next ((s.advancePc.setX s.a).applyNZ s.a)) ∨
    (s.prog.byteAt s.pc.toNat = some 0xE8#8 ∧
      fetchDecodeExecute s = .next ((s.advancePc.setX (incrementByte s.x)).applyNZ (incrementByte s.x))) ∨
    (∃ op, s.prog.byteAt s.pc.toNat = some op ∧ op ≠ 0x00#8 ∧ op ≠ 0xA9#8 ∧ op ≠ 0xAA#8 ∧ op ≠ 0xE8#8 ∧
      fetchDecodeExecute s = .next (s.advancePc.raise (.unimplementedOpcode op s.pc))) := by
  unfold fetchDecodeExecute fetch
  cases hop : s.prog.byteAt s.pc.toNat with
  | none => exact .inl ⟨rfl, by rw [memRead_error hop]⟩
  | some op =>
    rw [memRead_ok hop]
    unfold decodeFetched
    rcases decodeOpcode_cases op with ⟨rfl, hd⟩ | ⟨rfl, hd⟩ | ⟨rfl, hd⟩ | ⟨rfl, hd⟩ | ⟨h0, h1, h2, h3, hd⟩
    · exact .inr (.inl ⟨rfl, rfl⟩)
    · cases hv : s.prog.byteAt (s.pc + 1#16).toNat with
      | none =>
        refine .inr (.inr (.inl ⟨rfl, rfl, ?_⟩))
        simp only [hd, Opcode.format, operandBytesAt_imm8, State.advancePc_prog, State.advancePc_pc, hv, Option.toList]
        rfl
      | some v =>
        refine .inr (.inr (.inr (.inl ⟨v, rfl, rfl, ?_⟩)))
        simp only [hd, Opcode.format, operandBytesAt_imm8, State.advancePc_prog, State.advancePc_pc, hv, Option.toList]
        rfl
    · exact .inr (.inr (.inr (.inr (.inl ⟨rfl, rfl⟩))))
    · exact .inr (.inr (.inr (.inr (.inr (.inl ⟨rfl, rfl⟩)))))
    · refine .inr (.inr (.inr (.inr (.inr (.inr ⟨op, rfl, h0, h1, h2, h3, ?_⟩)))))
      simp only [hd]

/-- All that a step of a run can do: the faults and BRK end the run and release its program, the other instructions go on. -/
theorem step_cases {s : State} (h : s.rs = .running) :
    (s.prog.byteAt s.pc.toNat = none ∧ step s = .next (s.raise (.programTruncated s.pc)).releaseProgram) ∨
    (s.prog.byteAt s.pc.toNat = some 0x00#8 ∧ step s = .next s.advancePc.halt.releaseProgram) ∨
    (s.prog.byteAt s.pc.toNat = some 0xA9#8 ∧ s.prog.byteAt (s.pc + 1#16).toNat = none ∧
      step s = .next (s.advancePc.raise (.programTruncated (s.pc + 1#16))).releaseProgram) ∨
    (∃ v, s.prog.byteAt s.pc.toNat = some 0xA9#8 ∧ s.prog.byteAt (s.pc + 1#16).toNat = some v ∧
      step s = .next ((s.advancePc.advancePc.setA v).applyNZ v)) ∨
    (s.prog.byteAt s.pc.toNat = some 0xAA#8 ∧ step s = .next ((s.advancePc.setX s.a).applyNZ s.a)) ∨
    (s.prog.byteAt s.pc.toNat = some 0xE8#8 ∧
      step s = .next ((s.advancePc.setX (incrementByte s.x)).applyNZ (incrementByte s.x))) ∨
    (∃ op, s.prog.byteAt s.pc.toNat = some op ∧ op ≠ 0x00#8 ∧ op ≠ 0xA9#8 ∧ op ≠ 0xAA#8 ∧ op ≠ 0xE8#8 ∧
      step s = .next (s.advancePc.raise (.unimplementedOpcode op s.pc)).releaseProgram) := by
  rcases fetchDecodeExecute_cases s with
    ⟨a, e⟩ | ⟨a, e⟩ | ⟨a, b, e⟩ | ⟨v, a, b, e⟩ | ⟨a, e⟩ | ⟨a, e⟩ | ⟨op, a, h0, h1, h2, h3, e⟩
  · exact .inl ⟨a, step_of_running h e⟩
  · exact .inr (.inl ⟨a, step_of_running h e⟩)
  · exact .inr (.inr (.inl ⟨a, b, step_of_running h e⟩))
  · exact .inr (.inr (.inr (.inl ⟨v, a, b, step_of_running_on h e h⟩)))
  · exact .inr (.inr (.inr (.inr (.inl ⟨a, step_of_running_on h e h⟩))))
  · exact .inr (.inr (.inr (.inr (.inr (.inl ⟨a, step_of_running_on h e h⟩)))))
  · exact .inr (.inr (.inr (.inr (.inr (.inr ⟨op, a, h0, h1, h2, h3, step_of_running h e⟩)))))

/-- A step of a run leaves the program as it is, or ends the run and leaves none. -/
theorem step_prog {s t : State} (hr : s.rs = .running) (h : step s = .next t) :
    t.prog = if t.rs = .running then s.prog else [] := by
  rcases step_cases hr with ⟨_, e⟩ | ⟨_, e⟩ | ⟨_, _, e⟩ | ⟨_, _, _, e⟩ | ⟨_, e⟩ | ⟨_, e⟩ | ⟨_, _, _, _, _, _, e⟩ <;>
    (rw [e] at h; cases h; simp [hr])

/-- Every memory operation keeps the canonical form: a step leaves the program as it is or releases it. -/
theorem step_keeps_wf {s t : State} (h : step s = .next t) (hw : s.prog.wf = true) : t.prog.wf = true := by
  by_cases hr : s.rs = .running
  · rw [step_prog hr h]
    split
    · exact hw
    · decide
  · rw [step_of_not_running hr] at h
    cases h
    exact hw

end Sys2Proof.Machine
end

