-- ==== Sys2Proof/Laws/Run.lean ====
section
/-! SUPPORT. Several steps of the machine, as the host counts them. -/

namespace Sys2Proof.Machine

theorem core_run_next (M : Host.Core) (k : Nat) (s t : M.State) (h : M.step s = .next t) :
    M.run (k + 1) s = M.run k t := by
  simp only [Host.Core.run, h]

theorem core_run_refused (M : Host.Core) (k : Nat) (s : M.State) (r : M.Refusal) (h : M.step s = .refused r) :
    M.run (k + 1) s = .refused r := by
  simp only [Host.Core.run, h]

/-- One step, then the rest. -/
theorem run_succ (k : Nat) {s t : State} (h : step s = .next t) :
    Host.Core.run core (k + 1) s = Host.Core.run core k t := core_run_next core k s t h

/-- Outside a run any number of steps changes nothing. -/
theorem run_of_not_running (k : Nat) {s : State} (h : s.rs ≠ .running) : Host.Core.run core k s = .next s := by
  induction k with
  | zero => rfl
  | succ k ih => exact (run_succ k (step_of_not_running h)).trans ih

/-- What every step keeps, every number of steps that answers a next state keeps. -/
theorem run_keeps {Q : State → Prop} (hstep : ∀ s t : State, Q s → step s = .next t → Q t) (k : Nat) {s t : State}
    (hs : Q s) (h : Host.Core.run core k s = .next t) : Q t := by
  induction k generalizing s with
  | zero => cases h; exact hs
  | succ k ih =>
    cases hu : step s with
    | next u => exact ih (hstep s u hs hu) ((run_succ k hu).symm.trans h)
    | fault f => exact nomatch f
    | refused r => exact nomatch (core_run_refused core k s r hu).symm.trans h

end Sys2Proof.Machine
end

