-- ==== Sys2Proof/Tests/Slice0.lean ====
section
/-! SUPPORT. Tests, with results taken from the spec's own worked examples and vectors (spec/95_test_vectors.md, named beside each), and
for every statement with hypotheses a concrete state that meets them. -/

namespace Sys2Proof.Tests

open Sys2Proof Sys2Proof.Machine

/-- The construction state with a run of the bytes just begun. -/
def runningOn (bytes : List Byte) : State := State.reset.beginRun bytes

/-- The same run with `PC` moved on to an index. -/
def runningAt (pc : Addr) (bytes : List Byte) : State := (runningOn bytes).setPc pc

/-- The next state of an outcome, if it is one. -/
def nextState : Host.Outcome State Fault Refusal → Option State
  | .next s => some s
  | .fault _ => none
  | .refused _ => none

/-- What the vectors write of a state: `A, X, SP, P, PC, RS, FR`. -/
def shown (o : Host.Outcome State Fault Refusal) : Option Observation := (nextState o).map State.observation

/-! ## Well-formedness: a program of 0x10000 bytes is refused (H-1), one of 0xFFFF bytes is not (H-2) -/

theorem test_program_too_long : programWellFormed (List.replicate 0x10000 0xE8#8) = false :=
  decide_eq_false (by rw [List.length_replicate]; decide)

theorem test_longest_program : programWellFormed (List.replicate 0xFFFF 0xE8#8) = true :=
  decide_eq_true (by rw [List.length_replicate]; decide)

/-! ## Decoding: each word written out from the encodings of 30_encoding.md, R63 -/

theorem test_decode_brk : decode [0b00000000#8] = .ok (.brk, []) := rfl

theorem test_decode_lda (v : Byte) : decode [0b10101001#8, v] = .ok (.lda v, []) := rfl

theorem test_decode_tax : decode [0b10101010#8] = .ok (.tax, []) := rfl

theorem test_decode_inx : decode [0b11101000#8] = .ok (.inx, []) := rfl

/-- D-2 and D-3: opcodes of the 6502 that are unimplemented here. -/
theorem test_decode_illegal :
    [0xEA#8, 0x01#8, 0xA8#8, 0xCA#8, 0x4C#8].map decodeOpcode = [none, none, none, none, none] := by decide

theorem test_decode_truncated_lda : decode [0xA9#8] = .error .noOperand := rfl

theorem test_table_words :
    [decodeTableWord 8 0x00, decodeTableWord 8 0xA9, decodeTableWord 16 0x80A9, decodeTableWord 8 0xAA,
      decodeTableWord 8 0xE8, decodeTableWord 8 0xEA] =
    [some .brk, some (.lda 0x00#8), some (.lda 0x80#8), some .tax, some .inx, none] := by decide

theorem test_fetch_word_runs :
    nextState (step (State.reset.withFetchWord 16 0x80A9)) =
      nextState (exec (.lda 0x80#8) (State.reset.withFetchWord 16 0x80A9).advancePc) := by decide

/-! ## One step of each instruction -/

/-- The worked example of R86. -/
theorem test_lda_negative :
    shown (step (runningOn [0xA9#8, 0x80#8, 0x00#8])) = some ⟨0x80#8, 0x00#8, 0x00#8, 0x80#8, 2#16, .running, none⟩ := by decide

/-- L-7 and P6: an operand of 00 is loaded, not executed. -/
theorem test_lda_zero :
    shown (step (runningOn [0xA9#8, 0x00#8, 0xE8#8])) = some ⟨0x00#8, 0x00#8, 0x00#8, 0x02#8, 2#16, .running, none⟩ := by decide

/-- R87, with a stale N that TAX of a zero overwrites (L-10). -/
theorem test_tax_zero :
    shown (step ((runningOn [0xAA#8]).setP 0x80#8)) = some ⟨0x00#8, 0x00#8, 0x00#8, 0x02#8, 1#16, .running, none⟩ := by decide

/-- The worked example of R87. -/
theorem test_tax_value :
    shown (step ((runningOn [0xAA#8]).setA 0x05#8)) = some ⟨0x05#8, 0x05#8, 0x00#8, 0x00#8, 1#16, .running, none⟩ := by decide

/-- The worked example of R88: the wrap to zero sets Z, clears N and sets no carry. -/
theorem test_inx_wrap :
    shown (step (((runningOn [0xE8#8]).setX 0xFF#8).setP 0x80#8)) =
      some ⟨0x00#8, 0x00#8, 0x00#8, 0x02#8, 1#16, .running, none⟩ := by decide

/-- V-S4b: 0x7F becomes 0x80 with N set, and V stays 0. -/
theorem test_inx_sign :
    shown (step ((runningOn [0xE8#8]).setX 0x7F#8)) = some ⟨0x00#8, 0x80#8, 0x00#8, 0x80#8, 1#16, .running, none⟩ := by decide

/-- B-1 and B-3: BRK at the last index halts and preserves `P`. -/
theorem test_brk :
    shown (step ((runningOn [0x00#8]).setP 0x82#8)) = some ⟨0x00#8, 0x00#8, 0x00#8, 0x82#8, 1#16, .halted, none⟩ := by decide

/-! ## Faults -/

/-- V-S6. -/
theorem test_unimplemented :
    shown (step (runningOn [0xFF#8])) =
      some ⟨0x00#8, 0x00#8, 0x00#8, 0x00#8, 1#16, .faulted, some (.unimplementedOpcode 0xFF#8 0#16)⟩ := by decide

/-- V-S7 and L-8: a truncated LDA leaves `A` and `P` as they were. -/
theorem test_truncated_lda :
    shown (step ((runningOn [0xA9#8]).setA 0x05#8)) =
      some ⟨0x05#8, 0x00#8, 0x00#8, 0x00#8, 1#16, .faulted, some (.programTruncated 1#16)⟩ := by decide

/-- D-1: the empty program. -/
theorem test_empty_program :
    shown (step (runningOn [])) = some ⟨0x00#8, 0x00#8, 0x00#8, 0x00#8, 0#16, .faulted, some (.programTruncated 0#16)⟩ := by decide

/-- R39: a run that has ended, here at BRK and at a fault, leaves no program. -/
theorem test_ended_run_keeps_no_program :
    [[0x00#8, 0xFF#8], [0xFF#8]].map (fun bytes => (nextState (step (runningOn bytes))).map State.prog) =
      [some [], some []] := by decide

/-! ## Host commands -/

/-- F-7: UPDATE_Z(0x00), then UPDATE_N(0x80), is the route to 0x82. -/
theorem test_flag_helpers : updateN 0x80#8 (updateZ 0x00#8 0x00#8) = 0x82#8 := by decide

/-- F-10 and F-11: the other bits pass through. -/
theorem test_update_nz : (updateNZ 0x00#8 0x4D#8, updateNZ 0x01#8 0xFF#8) = (0x4F#8, 0x7D#8) := by decide

/-- V-S5, the end-to-end program, by `run(program)`. -/
theorem test_run_program :
    shown (runProgram [0xA9#8, 0x05#8, 0xAA#8, 0xE8#8, 0x00#8] State.reset) =
      some ⟨0x05#8, 0x06#8, 0x00#8, 0x00#8, 5#16, .halted, none⟩ := by decide

/-- H-5: a START after a fault clears `FR`. -/
theorem test_start_clears_fault :
    shown (command (.start [0x00#8]) ((runningOn [0xFF#8]).raise (.unimplementedOpcode 0xFF#8 0#16))) =
      some ⟨0x00#8, 0x00#8, 0x00#8, 0x00#8, 0#16, .running, none⟩ := by decide

/-! ## Witnesses: for each statement with hypotheses, a state that meets them. The name says which statement. -/

theorem runningOn_programOk (bytes : List Byte) (h : bytes.length ≤ 0xFFFF) : (runningOn bytes).ProgramOk :=
  ⟨Memory.wf_beginRun _ bytes, (Memory.length_ofBytes bytes).trans_le h⟩

theorem runningOn_inv (bytes : List Byte) (h : bytes.length ≤ 0xFFFF) : (runningOn bytes).Inv :=
  ⟨runningOn_programOk bytes h, fun _ => Nat.zero_le _, fun hr => absurd rfl hr, rfl, (by decide : (0x00#8 : Byte) &&& 0x7D#8 = 0x00#8), by simp [runningOn]⟩

theorem runningAt_inv (pc : Addr) (bytes : List Byte) (h : bytes.length ≤ 0xFFFF) (hp : pc.toNat ≤ bytes.length) :
    (runningAt pc bytes).Inv :=
  ⟨⟨Memory.wf_beginRun State.reset bytes, (Memory.length_ofBytes bytes).trans_le h⟩,
    fun _ => hp.trans (Memory.length_ofBytes bytes).ge, fun hr => absurd rfl hr, rfl, (by decide : (0x00#8 : Byte) &&& 0x7D#8 = 0x00#8),
    by simp [runningAt, runningOn]⟩

/-- InstructionsUpdateFlagsFromResult, FrameOfInstructions: every instruction answers a next state. -/
theorem witness_exec_next :
    (∃ t, exec (.lda 0x80#8) State.reset = .next t) ∧ (∃ t, exec .tax State.reset = .next t) ∧
    (∃ t, exec .inx State.reset = .next t) ∧ (∃ t, exec .brk State.reset = .next t) :=
  ⟨⟨_, rfl⟩, ⟨_, rfl⟩, ⟨_, rfl⟩, ⟨_, rfl⟩⟩

/-- LdaImmediateResult, with the operand at the last index. -/
theorem witness_LdaImmediateResult : (runningOn [0xA9#8, 0x80#8]).ProgramOk ∧ (runningOn [0xA9#8, 0x80#8]).Fetches 0xA9#8 ∧
    (runningOn [0xA9#8, 0x80#8]).prog.byteAt ((runningOn [0xA9#8, 0x80#8]).pc.toNat + 1) = some 0x80#8 :=
  ⟨runningOn_programOk _ (by decide), ⟨rfl, rfl⟩, rfl⟩

/-- LdaWithoutOperandIsTruncated, also as the second clause of FaultedStepLeaves. -/
theorem witness_LdaWithoutOperandIsTruncated : (runningAt 1#16 [0xE8#8, 0xA9#8]).Inv ∧
    (runningAt 1#16 [0xE8#8, 0xA9#8]).Fetches 0xA9#8 ∧
    (runningAt 1#16 [0xE8#8, 0xA9#8]).pc.toNat + 1 = (runningAt 1#16 [0xE8#8, 0xA9#8]).progLen :=
  ⟨runningAt_inv _ _ (by decide) (by decide), ⟨rfl, rfl⟩, rfl⟩

/-- TaxResult. -/
theorem witness_TaxResult : (runningOn [0xAA#8]).Fetches 0xAA#8 := ⟨rfl, rfl⟩

/-- InxResult, at the wrap. -/
theorem witness_InxResult : 0x00#8 = BitVec.ofNat 8 ((((runningOn [0xE8#8]).setX 0xFF#8).x.toNat + 1) % 2 ^ 8) ∧
    ((runningOn [0xE8#8]).setX 0xFF#8).Fetches 0xE8#8 := ⟨rfl, ⟨rfl, rfl⟩⟩

/-- BrkHalts, at the last index, with another program that holds the BRK, and a step that halts. -/
theorem witness_BrkHalts : (runningOn [0x00#8]).Fetches 0x00#8 ∧ (Memory.ofBytes [0x00#8, 0xFF#8]).byteAt 0 = some 0x00#8 ∧ (runningOn [0x00#8]).ProgramOk ∧
    (runningOn [0x00#8]).pc.toNat + 1 = (runningOn [0x00#8]).progLen ∧ (runningOn [0x00#8]).rs = .running ∧
    ∃ t, step (runningOn [0x00#8]) = .next t ∧ t.rs = .halted :=
  ⟨⟨rfl, rfl⟩, rfl, runningOn_programOk _ (by decide), rfl, rfl, ⟨_, rfl, rfl⟩⟩

/-- IllegalOpcodeFaults, at the neighbours of the four opcodes and at both ends; the last also as the third clause of
FaultedStepLeaves. -/
theorem witness_IllegalOpcodeFaults :
    (∀ op ∈ [0x01#8, 0xA8#8, 0xAB#8, 0xE7#8, 0xE9#8, 0xFF#8], op ≠ 0x00#8 ∧ op ≠ 0xA9#8 ∧ op ≠ 0xAA#8 ∧ op ≠ 0xE8#8) ∧
    (runningOn [0xFF#8]).Fetches 0xFF#8 := ⟨by decide, ⟨rfl, rfl⟩⟩

/-- FetchPastEndIsTruncated, also as the first clause of FaultedStepLeaves: at the end of a program and on the empty one. -/
theorem witness_FetchPastEndIsTruncated :
    (runningAt 1#16 [0xE8#8]).Inv ∧ (runningAt 1#16 [0xE8#8]).rs = .running ∧
      (runningAt 1#16 [0xE8#8]).progLen ≤ (runningAt 1#16 [0xE8#8]).pc.toNat ∧
    (runningOn []).Inv ∧ (runningOn []).progLen ≤ (runningOn []).pc.toNat :=
  ⟨runningAt_inv _ _ (by decide) (by decide), rfl, by decide, runningOn_inv _ (by decide), by decide⟩

/-- ProgramCounterIncrement, each clause: a START; a failed opcode read; another opcode; LDA without and with its operand. -/
theorem witness_ProgramCounterIncrement :
    (∃ t, command (.start []) State.reset = .next t) ∧
    (∀ bytes ∈ [[], [0xE8#8], [0xA9#8], [0xA9#8, 0x80#8]], (runningOn bytes).Inv ∧ (runningOn bytes).rs = .running) ∧
    (∃ t, step (runningOn []) = .next t) ∧ (runningOn []).prog.byteAt 0 = none ∧
    (∃ t, step (runningOn [0xE8#8]) = .next t) ∧ (runningOn [0xE8#8]).prog.byteAt 0 = some 0xE8#8 ∧
    (∃ t, step (runningOn [0xA9#8]) = .next t) ∧ (runningOn [0xA9#8]).prog.byteAt 1 = none ∧
    (∃ t, step (runningOn [0xA9#8, 0x80#8]) = .next t) ∧ (runningOn [0xA9#8, 0x80#8]).prog.byteAt 1 = some 0x80#8 := by
  refine ⟨⟨_, rfl⟩, fun bytes hb => ⟨runningOn_inv bytes ?_, rfl⟩, ⟨_, rfl⟩, rfl, ⟨_, rfl⟩, rfl, ⟨_, rfl⟩, rfl, ⟨_, rfl⟩, rfl⟩
  revert bytes
  decide

/-- OnlyBrkOrFaultEndsRun, RefinesExactReference, StepKeepsInvariant, StatusAndStackPointerNeverRead, EveryRunEnds: a state of a run
that meets the invariant and has a next state. -/
theorem witness_run_state : (runningOn [0xE8#8, 0x00#8]).Inv ∧ (runningOn [0xE8#8, 0x00#8]).rs = .running ∧
    ∃ t, step (runningOn [0xE8#8, 0x00#8]) = .next t := ⟨runningOn_inv _ (by decide), rfl, ⟨_, rfl⟩⟩

/-- NoStepOutsideRun, ReadReturnsObservation, FlagCommandsWriteStatusOnly, ProgramNotRetained, RunProgramEndsAndReports: a state outside
a run, and an accepted command. -/
theorem witness_outside_run : State.reset.rs ≠ .running ∧ State.reset.Inv ∧
    (∃ t, command (.updateN 0x80#8) State.reset = .next t) ∧ ([] : List Byte).length ≤ 0xFFFF :=
  ⟨by decide, ⟨⟨by decide, by decide⟩, by decide, fun _ => rfl, rfl, by decide, by decide⟩, ⟨_, rfl⟩, by decide⟩

/-- StepRunsDecodedInstruction: LDA whose operand is the last byte. -/
theorem witness_StepRunsDecodedInstruction : (runningAt 1#16 [0xE8#8, 0xA9#8, 0x05#8]).Inv ∧
    (runningAt 1#16 [0xE8#8, 0xA9#8, 0x05#8]).rs = .running ∧
    decode ((runningAt 1#16 [0xE8#8, 0xA9#8, 0x05#8]).prog.bytes.drop 1) = .ok (.lda 0x05#8, []) :=
  ⟨runningAt_inv _ _ (by decide) (by decide), rfl, rfl⟩

/-- StepConsumesItsInstruction: a step that goes on. -/
theorem witness_StepConsumesItsInstruction : (runningOn [0xA9#8, 0x05#8]).Inv ∧
    ∃ t, step (runningOn [0xA9#8, 0x05#8]) = .next t ∧ t.rs = .running :=
  ⟨runningOn_inv _ (by decide), ⟨_, rfl, rfl⟩⟩

/-- LoadedProgramHoldsItsBytes, StartBeginsRun: the longest program is accepted. -/
theorem witness_StartBeginsRun : State.reset.rs ≠ .running ∧ (List.replicate 0xFFFF 0xE8#8).length ≤ 0xFFFF ∧
    ∃ t, command (.start (List.replicate 0xFFFF 0xE8#8)) State.reset = .next t :=
  by
  refine ⟨by decide, by rw [List.length_replicate], State.reset.beginRun (List.replicate 0xFFFF 0xE8#8), ?_⟩
  exact (command_next_iff _ _ _).2 ⟨(refusal_start_iff _ _).2 ⟨by decide, by rw [List.length_replicate]; decide⟩, rfl⟩

/-- MemReadBoundsChecked, both clauses where they meet. -/
theorem witness_MemReadBoundsChecked : (runningOn [0xE8#8]).ProgramOk ∧
    (0#16).toNat < (runningOn [0xE8#8]).progLen ∧ (runningOn [0xE8#8]).progLen ≤ (1#16).toNat :=
  ⟨runningOn_programOk _ (by decide), by decide, by decide⟩

/-- FaultedStepLeaves: a step that faults, for each of its clauses. -/
theorem witness_FaultedStepLeaves :
    (∃ t, step (runningAt 1#16 [0xE8#8]) = .next t ∧ t.rs = .faulted) ∧
    (∃ t, step (runningAt 1#16 [0xE8#8, 0xA9#8]) = .next t ∧ t.rs = .faulted) ∧
    (∃ t, step (runningOn [0xFF#8]) = .next t ∧ t.rs = .faulted) ∧ (runningOn [0xFF#8]).Inv :=
  ⟨⟨_, rfl, rfl⟩, ⟨_, rfl, rfl⟩, ⟨_, rfl, rfl⟩, runningOn_inv _ (by decide)⟩

/-- FaultRecordLifetime: a faulted state, and a command that is neither CONSTRUCT nor START. -/
theorem witness_FaultRecordLifetime : ((runningOn [0xFF#8]).raise (.unimplementedOpcode 0xFF#8 0#16)).rs = .faulted ∧
    HostCommand.read ≠ .construct ∧ ∀ prog, HostCommand.read ≠ .start prog := ⟨rfl, by decide, fun _ => by simp⟩

/-- CommandsRefused: a run in progress, and a program one byte too long. -/
theorem witness_CommandsRefused : (runningOn []).rs = .running ∧ HostCommand.read ≠ .construct ∧
    State.reset.rs ≠ .running ∧ 0xFFFF < (List.replicate 0x10000 0xE8#8).length := ⟨rfl, by decide, by decide, by rw [List.length_replicate]; decide⟩

/-- EncodingsOfRunStateAndRecord: two records with the same fields, here one and the same. -/
theorem witness_EncodingsOfRunStateAndRecord : ∃ f g : FaultRecord, FaultRecord.cause f = FaultRecord.cause g ∧
    FaultRecord.opcode f = FaultRecord.opcode g ∧ FaultRecord.pc f = FaultRecord.pc g :=
  ⟨some (.programTruncated 1#16), some (.programTruncated 1#16), rfl, rfl, rfl⟩

/-- CommandKeepsInvariant, HostWritesNoRegister, UnusedStatusBitsStayZero: accepted commands of each kind in a state of the invariant. -/
theorem witness_commands : State.reset.Inv ∧ (∃ t, command .read State.reset = .next t) ∧
    (∃ t, command (.start [0xE8#8]) State.reset = .next t) ∧ (∃ t, command (.updateZ 0x00#8) State.reset = .next t) ∧
    HostCommand.updateZ 0x00#8 ≠ .construct :=
  ⟨witness_outside_run.2.1, ⟨_, rfl⟩, ⟨_, rfl⟩, ⟨_, rfl⟩, by decide⟩

/-- ProgramOnlyDuringRun: a START, a step that goes on, a step that ends the run, and a reachable state outside a run. -/
theorem witness_ProgramOnlyDuringRun :
    (∃ t, command (.start [0xE8#8]) State.reset = .next t) ∧
    (runningOn [0xE8#8]).rs = .running ∧ (∃ t, step (runningOn [0xE8#8]) = .next t ∧ t.rs = .running) ∧
    (runningOn [0x00#8]).rs = .running ∧
    ∃ t, step (runningOn [0x00#8]) = .next t ∧ t.rs ≠ .running ∧ Reachable t :=
  ⟨⟨_, rfl⟩, rfl, ⟨_, rfl, rfl⟩, rfl, _, rfl, by decide, .stepped (.commanded (.start [0x00#8]) .constructed rfl) rfl⟩

/-- ReachableStatesMeetInvariant, StatusValuesOfReachableStates, UnusedStatusBitsStayZero: a state reached by a run. -/
theorem witness_reachable : Reachable (runningOn [0xE8#8]) ∧ ReachableByRuns (runningOn [0xE8#8]) :=
  ⟨.commanded (.start [0xE8#8]) .constructed rfl, .started [0xE8#8] .constructed rfl⟩

end Sys2Proof.Tests
end

/-! SUPPORT. The state's own rules (spec/10_state.md): what the flag helpers do to each bit of `P`, what instructions, steps and commands
leave of the bits they do not write, where the program stands, and the five statements about them. -/

namespace Sys2Proof.Machine

/-! ## The flag-update unit, bit by bit -/

/-- R27. -/
theorem updateN_getLsbD (r p : Byte) (j : Nat) :
    (updateN r p).getLsbD j = if j = 7 then r.getLsbD 7 else p.getLsbD j :=
  setBit_getLsbD p 7 j _ (by decide)

/-- R28. -/
theorem updateZ_getLsbD (r p : Byte) (j : Nat) :
    (updateZ r p).getLsbD j = if j = 1 then decide (r = 0x00#8) else p.getLsbD j :=
  setBit_getLsbD p 1 j _ (by decide)

/-- The two helpers write different bits, so their order does not matter (R29). -/
theorem updateNZ_eq_updateN_updateZ (r p : Byte) : updateNZ r p = updateN r (updateZ r p) := by
  refine BitVec.eq_of_getLsbD_eq fun j _ => ?_
  rw [updateNZ, updateZ_getLsbD, updateN_getLsbD, updateN_getLsbD, updateZ_getLsbD]
  by_cases h7 : j = 7
  · subst h7; rfl
  · rw [if_neg h7, if_neg h7]

/-- The mask of R29 keeps every bit of `P` but Z and N. -/
theorem keepMask_getLsbD {j : Nat} (hj : j < 8) : (0x7D#8).getLsbD j = decide (j ≠ 1 ∧ j ≠ 7) := by
  revert j
  decide

/-- The term `r[7] << 7` of R29 is bit 7 of the result alone. -/
theorem negativeTerm_getLsbD (r : Byte) {j : Nat} (hj : j < 8) :
    ((r >>> 7) <<< 7).getLsbD j = (decide (j = 7) && r.getLsbD 7) := by
  rw [BitVec.getLsbD_shiftLeft, BitVec.getLsbD_ushiftRight]
  by_cases h7 : j = 7
  · subst h7; simp
  · have hlt : j < 7 := by omega
    simp [h7, hlt]

/-- The term `(r == 0) << 1` of R29 is bit 1 alone. -/
theorem zeroTerm_getLsbD (r : Byte) {j : Nat} (hj : j < 8) :
    ((if r = 0x00#8 then 1#8 else 0#8) <<< 1).getLsbD j = (decide (j = 1) && decide (r = 0x00#8)) := by
  by_cases hr : r = 0x00#8
  · simp only [hr, if_true, decide_true, Bool.and_true]
    revert j
    decide
  · simp [hr]

/-- The closed form of R29. -/
theorem updateNZ_eq_closedForm (r p : Byte) :
    updateNZ r p = (p &&& 0x7D#8) ||| ((r >>> 7) <<< 7) ||| ((if r = 0x00#8 then 1#8 else 0#8) <<< 1) := by
  refine BitVec.eq_of_getLsbD_eq fun j hj => ?_
  rw [updateNZ_getLsbD, beq_eq_decide, BitVec.getLsbD_or, BitVec.getLsbD_or, BitVec.getLsbD_and, keepMask_getLsbD hj,
    negativeTerm_getLsbD r hj, zeroTerm_getLsbD r hj]
  by_cases h1 : j = 1
  · subst h1; simp
  · by_cases h7 : j = 7
    · subst h7; simp
    · simp [h1, h7]

/-- `P` after the combined update, with the two flags it writes, in the form the instructions' rules name them (R31). -/
theorem applyNZ_flags (r : Byte) (s : State) :
    (s.applyNZ r).p = updateNZ r s.p ∧ readFlag .negative (s.applyNZ r).p = r.getLsbD 7 ∧
      readFlag .zero (s.applyNZ r).p = decide (r = 0x00#8) :=
  ⟨rfl, readFlag_negative_updateNZ r s.p, readFlag_zero_updateNZ r s.p⟩

/-! ## The bits of `P` that nothing writes -/

/-- Two status bytes equal under the mask 0x7D agree in every bit but Z and N. -/
theorem getLsbD_eq_of_mask_eq {p q : Byte} (h : q &&& 0x7D#8 = p &&& 0x7D#8) {j : Nat} (h1 : j ≠ 1) (h7 : j ≠ 7) :
    q.getLsbD j = p.getLsbD j := by
  by_cases hj : j < 8
  · have hbit := congrArg (fun v : Byte => v.getLsbD j) h
    simpa [keepMask_getLsbD hj, h1, h7] using hbit
  · rw [BitVec.getLsbD_of_ge q j (by omega), BitVec.getLsbD_of_ge p j (by omega)]

/-- No instruction writes a bit of `P` but Z and N (R85). -/
theorem exec_keeps_mask {i : Instr} {s t : State} (h : exec i s = .next t) : t.p &&& 0x7D#8 = s.p &&& 0x7D#8 := by
  rcases exec_cases h with ⟨_, rfl⟩ | ⟨imm, _, rfl⟩ | ⟨_, rfl⟩ | ⟨_, rfl⟩
  · rfl
  · exact updateNZ_mask imm s.p
  · exact updateNZ_mask s.a s.p
  · exact updateNZ_mask (incrementByte s.x) s.p

/-- A step of a run leaves `P` as it is or applies UpdateNZ to it. -/
theorem step_p {s t : State} (hr : s.rs = .running) (h : step s = .next t) :
    t.p = s.p ∨ ∃ r : Byte, t.p = updateNZ r s.p := by
  have p_of {u : State} (e : step s = .next u) : t.p = u.p := congrArg State.p (Host.Outcome.next.inj (h.symm.trans e))
  rcases step_cases hr with ⟨_, e⟩ | ⟨_, e⟩ | ⟨_, _, e⟩ | ⟨v, _, _, e⟩ | ⟨_, e⟩ | ⟨_, e⟩ | ⟨_, _, _, _, _, _, e⟩
  · exact .inl ((p_of e).trans rfl)
  · exact .inl ((p_of e).trans rfl)
  · exact .inl ((p_of e).trans rfl)
  · exact .inr ⟨v, p_of e⟩
  · exact .inr ⟨s.a, p_of e⟩
  · exact .inr ⟨incrementByte s.x, p_of e⟩
  · exact .inl ((p_of e).trans rfl)

/-- No step of a run writes a bit of `P` but Z and N. -/
theorem step_keeps_mask {s t : State} (hr : s.rs = .running) (h : step s = .next t) :
    t.p &&& 0x7D#8 = s.p &&& 0x7D#8 := by
  rcases step_p hr h with e | ⟨r, e⟩
  · rw [e]
  · rw [e, updateNZ_mask]

/-- No host command but CONSTRUCT writes a bit of `P` but Z and N. -/
theorem command_keeps_mask {c : HostCommand} {s t : State} (hc : c ≠ .construct) (h : command c s = .next t) :
    t.p &&& 0x7D#8 = s.p &&& 0x7D#8 := by
  obtain ⟨_, rfl⟩ := (command_next_iff c s t).1 h
  cases c with
  | construct => exact absurd rfl hc
  | start prog => rfl
  | read => rfl
  | updateN r => exact updateN_mask r s.p
  | updateZ r => exact updateZ_mask r s.p
  | updateNZ r => exact updateNZ_mask r s.p

/-! ## The states a host can reach -/

/-- What holds at construction and is kept by every command but CONSTRUCT and by every step of a run holds of every reachable state:
CONSTRUCT gives the construction state again, and outside a run a step changes nothing. -/
theorem Reachable.of_kept {Q : State → Prop} (hreset : Q State.reset)
    (hcommand : ∀ (s t : State) (c : HostCommand), c ≠ .construct → Q s → command c s = .next t → Q t)
    (hstep : ∀ s t : State, s.rs = .running → Q s → step s = .next t → Q t) {s : State} (h : Reachable s) : Q s := by
  induction h with
  | constructed => exact hreset
  | @commanded s t c _ hc ih =>
    by_cases hcon : c = .construct
    · subst hcon
      obtain ⟨_, rfl⟩ := (command_next_iff _ s t).1 hc
      exact hreset
    · exact hcommand s t c hcon ih hc
  | @stepped s t _ hs ih =>
    by_cases hr : s.rs = .running
    · exact hstep s t hr ih hs
    · rw [step_of_not_running hr] at hs
      cases hs
      exact ih

/-- In a reachable state every bit of `P` but Z and N is 0 (R24, R25). -/
theorem Reachable.mask_eq_zero {s : State} (h : Reachable s) : s.p &&& 0x7D#8 = 0x00#8 :=
  h.of_kept (Q := fun s => s.p &&& 0x7D#8 = 0x00#8) (by decide)
    (fun _ _ _ hc ih e => (command_keeps_mask hc e).trans ih) (fun _ _ hr ih e => (step_keeps_mask hr e).trans ih)

/-! ## The program of a run -/

/-- A command but CONSTRUCT begins a run, or leaves the run state and the program as they were. -/
theorem command_rs_prog {c : HostCommand} {s t : State} (hc : c ≠ .construct) (h : command c s = .next t) :
    t.rs = .running ∨ (t.rs = s.rs ∧ t.prog = s.prog) := by
  obtain ⟨_, rfl⟩ := (command_next_iff c s t).1 h
  cases c with
  | construct => exact absurd rfl hc
  | start prog => exact .inl rfl
  | read | updateN r | updateZ r | updateNZ r => exact .inr ⟨rfl, rfl⟩

/-- An accepted START supplies the bytes given, whatever was before. -/
theorem start_prog_bytes {s t : State} {prog : List Byte} (h : command (.start prog) s = .next t) : t.prog.bytes = prog := by
  obtain ⟨_, rfl⟩ := (command_next_iff _ s t).1 h
  exact Memory.bytes_ofBytes prog

/-- Outside a run a reachable state holds no program (R39). -/
theorem Reachable.noProgramOutsideRun {s : State} (h : Reachable s) : s.rs ≠ .running → s.prog = [] := by
  refine h.of_kept (Q := fun s => s.rs ≠ .running → s.prog = []) (fun _ => rfl) ?_ ?_
  · intro s t c hc ih e hr
    rcases command_rs_prog hc e with hrun | ⟨hrs, hprog⟩
    · exact absurd hrun hr
    · rw [hprog]
      exact ih (hrs ▸ hr)
  · intro s t hrun _ e hr
    rw [step_prog hrun e, if_neg hr]

/-! ## The statements -/

/-- Settles O4: each instruction's next state is a combined update of the byte it wrote, or for BRK the state with `RS` changed. -/
theorem instructionsUpdateFlagsFromResult : Obligations.InstructionsUpdateFlagsFromResult := by
  refine ⟨fun v s t h => ?_, fun i s t hi h => ?_, fun s t h => ?_, fun i s t h j hz hn => ?_⟩
  · cases h
    exact applyNZ_flags v (s.advancePc.setA v)
  · rcases hi with rfl | rfl
    · cases h
      exact applyNZ_flags s.a (s.setX s.a)
    · cases h
      exact applyNZ_flags (incrementByte s.x) (s.setX (incrementByte s.x))
  · cases h
    rfl
  · exact getLsbD_eq_of_mask_eq (exec_keeps_mask h) hz hn

/-- Settles O25, by what a step leaves of the program and by induction on the way a state is reached. -/
theorem programOnlyDuringRun : Obligations.ProgramOnlyDuringRun := by
  refine ⟨fun s t prog h => start_prog_bytes h, fun s t hr h => ⟨fun ht => ?_, fun ht => ?_⟩, fun s h => h.noProgramOutsideRun⟩
  · rw [step_prog hr h, if_pos ht]
  · rw [step_prog hr h, if_neg ht]

/-- Settles O41: bits 4 and 5 lie under the mask 0x7D, which every step and command keeps and construction sets to 0. -/
theorem unusedStatusBitsStayZero : Obligations.UnusedStatusBitsStayZero := by
  have bits {p q : Byte} (h : q &&& 0x7D#8 = p &&& 0x7D#8) : q.getLsbD 4 = p.getLsbD 4 ∧ q.getLsbD 5 = p.getLsbD 5 :=
    ⟨getLsbD_eq_of_mask_eq h (by decide) (by decide), getLsbD_eq_of_mask_eq h (by decide) (by decide)⟩
  exact ⟨⟨rfl, rfl⟩, fun s t hr h => bits (step_keeps_mask hr h), fun s t c hc h => bits (command_keeps_mask hc h),
    fun s h => bits (p := 0x00#8) h.mask_eq_zero⟩

/-- Settles O2, by the bits each helper writes. -/
theorem flagHelpersTouchOneBit : Obligations.FlagHelpersTouchOneBit :=
  fun r p j => ⟨updateN_getLsbD r p j, updateZ_getLsbD r p j⟩

/-- Settles O3: the first form is the definition, the other two agree with it bit by bit. -/
theorem updateNZClosedForm : Obligations.UpdateNZClosedForm :=
  fun r p => ⟨rfl, updateNZ_eq_updateN_updateZ r p, updateNZ_eq_closedForm r p⟩

end Sys2Proof.Machine

/-! SUPPORT. The program buffer after a START (spec R42), and the statement about it. -/

namespace Sys2Proof.Machine

/-- The byte at each index of a loaded program is the byte given in that place (R42). -/
@[simp] theorem Memory.byteAt_ofBytes (bs : List Byte) (i : Nat) : (Memory.ofBytes bs).byteAt i = bs[i]? := by
  rw [Memory.byteAt_of_wf (Memory.wf_ofBytes bs), Memory.bytes_ofBytes]

/-- Settles O23: START's guard bounds the length, and the program it loads is canonical, so each index holds the byte in that place. -/
theorem loadedProgramHoldsItsBytes : Obligations.LoadedProgramHoldsItsBytes := by
  intro s t prog h
  obtain ⟨haccepted, rfl⟩ := (command_next_iff (.start prog) s t).1 h
  obtain ⟨_, hfits⟩ := (refusal_start_iff prog s).1 haccepted
  have hlen : (s.beginRun prog).progLen = prog.length := Memory.length_ofBytes prog
  exact ⟨hlen, hlen.trans_le hfits, Memory.byteAt_ofBytes prog⟩

end Sys2Proof.Machine

/-! SUPPORT. The opcode map and the decoder on whole sequences (spec/30_encoding.md R63, R65, R67), the step that fetches a given opcode
byte, and the four statements about encodings. -/

namespace Sys2Proof

/-- R65: exactly the bytes outside the four entries of the map select nothing. -/
theorem decodeOpcode_eq_none_iff (op : Byte) : decodeOpcode op = none ↔ op ∉ [0x00#8, 0xA9#8, 0xAA#8, 0xE8#8] := by
  rcases decodeOpcode_cases op with ⟨rfl, hd⟩ | ⟨rfl, hd⟩ | ⟨rfl, hd⟩ | ⟨rfl, hd⟩ | ⟨h0, h1, h2, h3, hd⟩
  · simp [hd]
  · simp [hd]
  · simp [hd]
  · simp [hd]
  · simp [hd, h0, h1, h2, h3]

/-- A byte that selects no row is rejected by its value, whatever follows it. -/
theorem decode_of_decodeOpcode_eq_none {op : Byte} (h : decodeOpcode op = none) (rest : List Byte) :
    decode (op :: rest) = .error (.unimplementedOpcode op) := by
  rw [decode_cons, h]

/-- Decoding takes an instruction's own bytes off a sequence and leaves the rest. -/
theorem decode_encode_append (i : Instr) (rest : List Byte) : decode (encode i ++ rest) = .ok (i, rest) := by
  cases i with
  | brk => rfl
  | lda imm => rfl
  | tax => rfl
  | inx => rfl

end Sys2Proof

namespace Sys2Proof.Machine

/-! ## A program index that does not wrap -/

/-- In a program a run may have, the index after one that holds a byte is still a 16-bit number (R35). -/
theorem State.ProgramOk.toNat_succ_of_byteAt {s : State} (hok : s.ProgramOk) {addr : Addr} {b : Byte}
    (hb : s.prog.byteAt addr.toNat = some b) : (addr + 1#16).toNat = addr.toNat + 1 := by
  have hlt : addr.toNat < s.progLen := Memory.lt_length_of_byteAt hok.canonical hb
  have hfits : s.progLen ≤ 0xFFFF := hok.fits
  bv_omega

/-! ## The step that fetches a given opcode byte -/

/-- An opcode that selects no row raises UnimplementedOpcode, and no operand is read (R77, R97). -/
theorem decodeFetched_of_decodeOpcode_eq_none {op : Byte} (h : decodeOpcode op = none) (fetchPc : Addr) (s : State) :
    decodeFetched fetchPc op s = .raised (s.raise (.unimplementedOpcode op fetchPc)) := by
  rw [decodeFetched, h]

/-- The opcode of LDA takes the byte at `PC` as its operand (R61). -/
theorem decodeFetched_lda {s : State} {v : Byte} (hv : s.prog.byteAt s.pc.toNat = some v) (fetchPc : Addr) :
    decodeFetched fetchPc 0xA9#8 s = .decoded (.lda v) s := by
  have hop : decodeOpcode 0xA9#8 = some .lda := decodeOpcode_opcodeByte .lda
  have hbytes : 0xA9#8 :: operandBytesAt s Opcode.lda.format = encode (.lda v) ++ [] := by
    rw [Opcode.format, operandBytesAt_imm8, hv]
    rfl
  simp only [decodeFetched, hop, hbytes, decode_encode_append]

/-- The byte at `PC` is decoded in the state with `PC` past it (R74). -/
theorem State.Fetches.fetch_eq {s : State} {op : Byte} (h : s.Fetches op) :
    fetch s = decodeFetched s.pc op s.advancePc := by
  rw [fetch, memRead_ok h.2]

/-- R65 and R77: the step that fetches a byte that selects no row. -/
theorem State.Fetches.step_of_decodeOpcode_eq_none {s : State} {op : Byte} (h : s.Fetches op) (hop : decodeOpcode op = none) :
    step s = .next (s.advancePc.raise (.unimplementedOpcode op s.pc)).releaseProgram := by
  refine step_of_running h.1 ?_
  rw [fetchDecodeExecute, h.fetch_eq, decodeFetched_of_decodeOpcode_eq_none hop]

/-- R61: the step that fetches 0xA9 with an operand byte behind it. -/
theorem State.Fetches.step_lda {s : State} {v : Byte} (h : s.Fetches 0xA9#8)
    (hv : s.prog.byteAt (s.pc + 1#16).toNat = some v) :
    step s = .next ((s.advancePc.advancePc.setA v).applyNZ v) := by
  refine step_of_running_on h.1 ?_ h.1
  rw [fetchDecodeExecute, h.fetch_eq, decodeFetched_lda (s := s.advancePc) hv]
  exact exec_lda v s.advancePc

/-- Two advances of `PC` are one by 2. -/
theorem State.advancePc_advancePc (s : State) : s.advancePc.advancePc = s.setPc (s.pc + 2#16) :=
  congrArg s.setPc (BitVec.add_assoc s.pc 1#16 1#16)

/-! ## The statements -/

/-- Settles O5: the operand's index is the one after the opcode's, and neither advance past a byte that is there wraps. -/
theorem ldaImmediateResult : Obligations.LdaImmediateResult := by
  refine ⟨fun s v => exec_lda v s, fun s v hok hfetch hv => ?_⟩
  have hone : (s.pc + 1#16).toNat = s.pc.toNat + 1 := hok.toNat_succ_of_byteAt hfetch.2
  rw [← hone] at hv
  constructor
  · rw [hfetch.step_lda hv, State.advancePc_advancePc]
    rfl
  · calc (s.pc + 2#16).toNat
        = (s.pc + 1#16 + 1#16).toNat := by rw [BitVec.add_assoc]; rfl
      _ = (s.pc + 1#16).toNat + 1 := hok.toNat_succ_of_byteAt hv
      _ = s.pc.toNat + 2 := by rw [hone]

/-- Settles O11: such a byte selects no row, so the decoder rejects it and the step raises the fault before any operand is read. -/
theorem illegalOpcodeFaults : Obligations.IllegalOpcodeFaults := by
  intro op h0 h1 h2 h3
  have hnone : decodeOpcode op = none := (decodeOpcode_eq_none_iff op).2 (by simp [h0, h1, h2, h3])
  exact ⟨decode_of_decodeOpcode_eq_none hnone, fun s hfetch => ⟨_, hfetch.step_of_decodeOpcode_eq_none hnone, rfl⟩, fun _ => rfl⟩

/-- Settles O20: each row is selected by its own byte, and the bytes of no row are those outside the map. -/
theorem opcodeMapExactlyFour : Obligations.OpcodeMapExactlyFour :=
  ⟨⟨decodeOpcode_opcodeByte .brk, rfl, rfl⟩, ⟨decodeOpcode_opcodeByte .lda, rfl, fun _ => rfl⟩,
    ⟨decodeOpcode_opcodeByte .tax, rfl, rfl⟩, ⟨decodeOpcode_opcodeByte .inx, rfl, rfl⟩, decodeOpcode_eq_none_iff⟩

/-- Settles O21: each sequence is the encoding of its instruction followed by the rest. -/
theorem workedEncodingDecodes : Obligations.WorkedEncodingDecodes :=
  ⟨decode_encode_append (.lda 0x05#8) [], decode_encode_append (.lda 0x05#8) [0xAA#8, 0xE8#8, 0x00#8],
    decode_encode_append .tax [0xE8#8, 0x00#8], decode_encode_append .inx [0x00#8], decode_encode_append .brk []⟩

end Sys2Proof.Machine

/-! SUPPORT. Fetch, decode and the loop (spec/40_fetch_decode.md): where a read fails, how far a step moves `PC` and how it leaves `RS`, the
exact reference beside the machine case by case, and the five statements about them. -/

namespace Sys2Proof.Machine

/-! ## Where a read fails -/

/-- The opcode fetch fails exactly at or past PROG_LEN (R44). -/
theorem State.ProgramOk.byteAt_eq_none_iff {s : State} (hok : s.ProgramOk) (i : Nat) :
    s.prog.byteAt i = none ↔ s.progLen ≤ i :=
  Memory.byteAt_eq_none_iff hok.canonical i

/-- Behind a byte that is there the next read fails exactly when that byte is the last one. -/
theorem State.ProgramOk.byteAt_succ_eq_none_iff {s : State} (hok : s.ProgramOk) {b : Byte}
    (hb : s.prog.byteAt s.pc.toNat = some b) :
    s.prog.byteAt (s.pc + 1#16).toNat = none ↔ s.pc.toNat + 1 = s.progLen := by
  have hlt : s.pc.toNat < s.progLen := Memory.lt_length_of_byteAt hok.canonical hb
  rw [hok.toNat_succ_of_byteAt hb, hok.byteAt_eq_none_iff]
  omega

/-- R73: the step whose opcode fetch fails. -/
theorem step_of_byteAt_eq_none {s : State} (hr : s.rs = .running) (h : s.prog.byteAt s.pc.toNat = none) :
    step s = .next (s.raise (.programTruncated s.pc)).releaseProgram := by
  refine step_of_running hr ?_
  rw [fetchDecodeExecute, fetch, memRead_error h]

/-- The increment of `PC` leaves the program a run may have. -/
theorem State.ProgramOk.advancePc {s : State} (hok : s.ProgramOk) : s.advancePc.ProgramOk :=
  ⟨hok.canonical, hok.fits⟩

/-! ## How far a step moves `PC` -/

/-- R75: a step of a run leaves `PC` where it was when the opcode fetch fails, moves it by 1 when the opcode alone is read, and by 2 when
LDA's operand is read too; in exact numbers, since no increment wraps. -/
theorem State.ProgramOk.step_pc_cases {s t : State} (hok : s.ProgramOk) (hr : s.rs = .running) (h : step s = .next t) :
    (s.prog.byteAt s.pc.toNat = none ∧ t.pc.toNat = s.pc.toNat) ∨
    (∃ op, s.prog.byteAt s.pc.toNat = some op ∧ (op = 0xA9#8 → s.prog.byteAt (s.pc.toNat + 1) = none) ∧
      t.pc.toNat = s.pc.toNat + 1) ∨
    (∃ v, s.prog.byteAt s.pc.toNat = some 0xA9#8 ∧ s.prog.byteAt (s.pc.toNat + 1) = some v ∧
      t.pc.toNat = s.pc.toNat + 2) := by
  have pc_of {u : State} (e : step s = .next u) : t.pc = u.pc := congrArg State.pc (Host.Outcome.next.inj (h.symm.trans e))
  have one {op : Byte} {u : State} (hop : s.prog.byteAt s.pc.toNat = some op) (e : step s = .next u)
      (hu : u.pc = s.pc + 1#16) : t.pc.toNat = s.pc.toNat + 1 := by
    rw [pc_of e, hu, hok.toNat_succ_of_byteAt hop]
  rcases step_cases hr with
    ⟨hop, e⟩ | ⟨hop, e⟩ | ⟨hop, hv, e⟩ | ⟨v, hop, hv, e⟩ | ⟨hop, e⟩ | ⟨hop, e⟩ | ⟨op, hop, _, hlda, _, _, e⟩
  · exact .inl ⟨hop, (congrArg BitVec.toNat (pc_of e)).trans rfl⟩
  · exact .inr (.inl ⟨_, hop, fun h => absurd h (by decide), one hop e rfl⟩)
  · rw [hok.toNat_succ_of_byteAt hop] at hv
    exact .inr (.inl ⟨_, hop, fun _ => hv, one hop e rfl⟩)
  · refine .inr (.inr ⟨v, hop, hok.toNat_succ_of_byteAt hop ▸ hv, ?_⟩)
    calc t.pc.toNat
        = (s.pc + 1#16 + 1#16).toNat := congrArg BitVec.toNat (pc_of e)
      _ = (s.pc + 1#16).toNat + 1 := hok.toNat_succ_of_byteAt hv
      _ = s.pc.toNat + 2 := by rw [hok.toNat_succ_of_byteAt hop]
  · exact .inr (.inl ⟨_, hop, fun h => absurd h (by decide), one hop e rfl⟩)
  · exact .inr (.inl ⟨_, hop, fun h => absurd h (by decide), one hop e rfl⟩)
  · exact .inr (.inl ⟨op, hop, fun h => absurd h hlda, one hop e rfl⟩)

/-! ## How a step leaves `RS` -/

/-- R70, by the bytes read: a step of a run halts at BRK, faults where a read fails or the opcode is illegal, and otherwise the run goes
on. -/
theorem step_rs_iff {s : State} (hr : s.rs = .running) :
    ∃ t, step s = .next t ∧ t.rs ≠ .idle ∧
      (t.rs = .halted ↔ s.prog.byteAt s.pc.toNat = some 0x00#8) ∧
      (t.rs = .faulted ↔
        s.prog.byteAt s.pc.toNat = none ∨
        (∃ op, s.prog.byteAt s.pc.toNat = some op ∧ op ∉ [0x00#8, 0xA9#8, 0xAA#8, 0xE8#8]) ∨
        (s.prog.byteAt s.pc.toNat = some 0xA9#8 ∧ s.prog.byteAt (s.pc + 1#16).toNat = none)) := by
  rcases step_cases hr with
    ⟨hop, e⟩ | ⟨hop, e⟩ | ⟨hop, hv, e⟩ | ⟨v, hop, hv, e⟩ | ⟨hop, e⟩ | ⟨hop, e⟩ | ⟨op, hop, hbrk, hlda, htax, hinx, e⟩
  · exact ⟨_, e, by simp [hop]⟩
  · exact ⟨_, e, by simp [hop]⟩
  · exact ⟨_, e, by simp [hop, hv, -BitVec.toNat_add]⟩
  · exact ⟨_, e, by simp [hop, hv, hr, -BitVec.toNat_add]⟩
  · exact ⟨_, e, by simp [hop, hr]⟩
  · exact ⟨_, e, by simp [hop, hr]⟩
  · exact ⟨_, e, by simp [hop, hbrk, hlda, htax, hinx]⟩

/-! ## The machine's numbers and the reference's -/

namespace Reference

/-- The flag update computes the closed form of R29 in exact arithmetic. -/
theorem toNat_updateNZ (r p : Byte) : (updateNZ r p).toNat = nextP r.toNat p.toNat := by
  have hneg : ((r >>> 7) <<< 7).toNat = r.toNat / 128 % 2 * 128 := by
    have hlt : r.toNat < 256 := r.isLt
    rw [BitVec.toNat_shiftLeft, BitVec.toNat_ushiftRight, Nat.shiftLeft_eq, Nat.shiftRight_eq_div_pow]
    omega
  have hzero : ((if r = 0x00#8 then 1#8 else 0#8) <<< 1).toNat = if r.toNat = 0 then 2 else 0 := by
    by_cases h : r = 0x00#8
    · subst h; rfl
    · have hne : r.toNat ≠ 0 := fun e => h (BitVec.eq_of_toNat_eq e)
      rw [if_neg h, if_neg hne]
      rfl
  rw [updateNZ_eq_closedForm, BitVec.toNat_or, BitVec.toNat_or, BitVec.toNat_and, hneg, hzero]
  rfl

/-- INX's byte sum in exact arithmetic (R89). -/
theorem toNat_incrementByte (v : Byte) : (incrementByte v).toNat = (v.toNat + 1) % 256 := BitVec.toNat_add v 1#8

theorem ofState_rs (s : State) : (ofState s).rs = s.rs := rfl
theorem ofState_pc (s : State) : (ofState s).pc = s.pc.toNat := rfl

theorem ofState_setA (v : Byte) (s : State) : ofState (s.setA v) = { ofState s with a := v.toNat } := rfl

theorem ofState_setX (v : Byte) (s : State) : ofState (s.setX v) = { ofState s with x := v.toNat } := rfl

theorem ofState_applyNZ (r : Byte) (s : State) :
    ofState (s.applyNZ r) = { ofState s with p := nextP r.toNat s.p.toNat } := by
  rw [← toNat_updateNZ]
  rfl

/-- Past a byte that is there the increment of `PC` is exact (R35). -/
theorem ofState_advancePc {s : State} (hok : s.ProgramOk) {b : Byte} (hb : s.prog.byteAt s.pc.toNat = some b) :
    ofState s.advancePc = { ofState s with pc := s.pc.toNat + 1 } := by
  rw [← hok.toNat_succ_of_byteAt hb]
  rfl

/-! ## The reference's step, by the bytes read -/

/-- The reference step whose opcode fetch fails. -/
theorem next_of_byteAt_eq_none {s : State} (hok : s.ProgramOk) (hr : s.rs = .running)
    (h : s.prog.byteAt s.pc.toNat = none) :
    next s.prog.bytes (ofState s) = (ofState s).stop (.programTruncated s.pc.toNat) := by
  rw [Memory.byteAt_of_wf hok.canonical] at h
  simp only [next, ofState_rs, ofState_pc, hr, if_true, h]

/-- The reference step that fetches the byte `op` executes it in the state with `PC` past it. -/
theorem next_of_byteAt_eq_some {s : State} (hok : s.ProgramOk) (hr : s.rs = .running) {op : Byte}
    (h : s.prog.byteAt s.pc.toNat = some op) :
    next s.prog.bytes (ofState s) = execute s.prog.bytes s.pc.toNat op.toNat (ofState s.advancePc) := by
  rw [ofState_advancePc hok h]
  rw [Memory.byteAt_of_wf hok.canonical] at h
  simp only [next, ofState_rs, ofState_pc, hr, if_true, h]

theorem execute_brk (prog : List Byte) (fetchPc : Nat) (b : Block) :
    execute prog fetchPc (0x00#8).toNat b = { b with rs := .halted } := rfl

theorem execute_tax (prog : List Byte) (fetchPc : Nat) (b : Block) :
    execute prog fetchPc (0xAA#8).toNat b = { b with x := b.a, p := nextP b.a b.p } := rfl

theorem execute_inx (prog : List Byte) (fetchPc : Nat) (b : Block) :
    execute prog fetchPc (0xE8#8).toNat b = { b with x := (b.x + 1) % 256, p := nextP ((b.x + 1) % 256) b.p } := rfl

theorem execute_lda_of_none {prog : List Byte} {b : Block} (h : prog[b.pc]? = none) (fetchPc : Nat) :
    execute prog fetchPc (0xA9#8).toNat b = b.stop (.programTruncated b.pc) := by
  simp [execute, h]

theorem execute_lda_of_some {prog : List Byte} {b : Block} {v : Byte} (h : prog[b.pc]? = some v) (fetchPc : Nat) :
    execute prog fetchPc (0xA9#8).toNat b = { b with pc := b.pc + 1, a := v.toNat, p := nextP v.toNat b.p } := by
  simp [execute, h]

theorem execute_illegal {op : Byte} (hbrk : op ≠ 0x00#8) (hlda : op ≠ 0xA9#8) (htax : op ≠ 0xAA#8) (hinx : op ≠ 0xE8#8)
    (prog : List Byte) (fetchPc : Nat) (b : Block) :
    execute prog fetchPc op.toNat b = b.stop (.unimplementedOpcode op.toNat fetchPc) := by
  have ne {c : Byte} (h : op ≠ c) : op.toNat ≠ c.toNat := fun e => h (BitVec.eq_of_toNat_eq e)
  exact (if_neg (ne hlda)).trans ((if_neg (ne htax)).trans ((if_neg (ne hinx)).trans (if_neg (ne hbrk))))

end Reference

/-! ## The statements -/

/-- Settles O12: at or past PROG_LEN the fetch finds no byte, and under the invariant `PC` is not past it. -/
theorem fetchPastEndIsTruncated : Obligations.FetchPastEndIsTruncated := by
  intro s hok hr hpast
  refine ⟨⟨_, step_of_byteAt_eq_none hr ((hok.byteAt_eq_none_iff _).2 hpast), rfl⟩, fun hinv => ?_⟩
  exact Nat.le_antisymm (hinv.pcInBounds hr) hpast

/-- Settles O13: START enters at 0, and a step moves `PC` by the number of bytes it read, each of which stands below PROG_LEN. -/
theorem programCounterIncrement : Obligations.ProgramCounterIncrement := by
  refine ⟨fun s t prog h => ?_, fun s t hinv hr h => ?_⟩
  · obtain ⟨_, rfl⟩ := (command_next_iff _ s t).1 h
    rfl
  · have below {i : Nat} {b : Byte} (hb : s.prog.byteAt i = some b) : i < s.progLen :=
      Memory.lt_length_of_byteAt hinv.programOk.canonical hb
    rcases hinv.programOk.step_pc_cases hr h with ⟨hop, hpc⟩ | ⟨op, hop, hnone, hpc⟩ | ⟨v, hop, hv, hpc⟩
    · exact ⟨hpc.trans_le (hinv.pcInBounds hr), by simp [hop, hpc]⟩
    · refine ⟨hpc.trans_le (below hop), by simp [hop], fun _ _ _ => hpc, fun _ _ => hpc, fun v hlda hv => ?_⟩
      rw [hop, Option.some.injEq] at hlda
      rw [hnone hlda] at hv
      cases hv
    · exact ⟨hpc.trans_le (below hv), by simp [hop, hv, hpc]⟩

/-- Settles O14, from the bytes a step reads and where in the program a read fails. -/
theorem onlyBrkOrFaultEndsRun : Obligations.OnlyBrkOrFaultEndsRun := by
  intro s hok hr
  obtain ⟨t, hstep, hidle, hhalted, hfaulted⟩ := step_rs_iff hr
  refine ⟨t, hstep, hidle, hhalted, ?_⟩
  rw [hfaulted, hok.byteAt_eq_none_iff, and_congr_right fun hop => hok.byteAt_succ_eq_none_iff hop]

/-- Settles O19: case by case, the machine's next state has the numbers the reference computes from the same bytes. -/
theorem refinesExactReference : Obligations.RefinesExactReference := by
  intro s hok hr
  rcases step_cases hr with
    ⟨hop, e⟩ | ⟨hop, e⟩ | ⟨hop, hv, e⟩ | ⟨v, hop, hv, e⟩ | ⟨hop, e⟩ | ⟨hop, e⟩ | ⟨op, hop, hbrk, hlda, htax, hinx, e⟩
  · exact ⟨_, e, (Reference.next_of_byteAt_eq_none hok hr hop).symm⟩
  · refine ⟨_, e, ?_⟩
    rw [Reference.next_of_byteAt_eq_some hok hr hop, Reference.execute_brk]
    rfl
  · have hbyte : s.prog.bytes[(Reference.ofState s.advancePc).pc]? = none := Memory.byteAt_of_wf hok.canonical _ ▸ hv
    refine ⟨_, e, ?_⟩
    rw [Reference.next_of_byteAt_eq_some hok hr hop, Reference.execute_lda_of_none hbyte]
    rfl
  · have hbyte : s.prog.bytes[(Reference.ofState s.advancePc).pc]? = some v := Memory.byteAt_of_wf hok.canonical _ ▸ hv
    refine ⟨_, e, ?_⟩
    rw [Reference.next_of_byteAt_eq_some hok hr hop, Reference.execute_lda_of_some hbyte, Reference.ofState_applyNZ,
      Reference.ofState_setA, Reference.ofState_advancePc hok.advancePc hv]
    rfl
  · refine ⟨_, e, ?_⟩
    rw [Reference.next_of_byteAt_eq_some hok hr hop, Reference.execute_tax, Reference.ofState_applyNZ]
    rfl
  · refine ⟨_, e, ?_⟩
    rw [Reference.next_of_byteAt_eq_some hok hr hop, Reference.execute_inx, Reference.ofState_applyNZ,
      Reference.ofState_setX, Reference.toNat_incrementByte]
    rfl
  · refine ⟨_, e, ?_⟩
    rw [Reference.next_of_byteAt_eq_some hok hr hop, Reference.execute_illegal hbrk hlda htax hinx]
    rfl

/-- Settles O30: START's guard is exactly the two conditions, and its effect is the run start. -/
theorem startBeginsRun : Obligations.StartBeginsRun := by
  refine ⟨fun s prog hr hlen => ?_, fun s t prog h => ?_⟩
  · have hstart : command (.start prog) s = .next (s.beginRun prog) :=
      (command_next_iff _ _ _).2 ⟨(refusal_start_iff prog s).2 ⟨hr, hlen⟩, rfl⟩
    exact ⟨_, hstart, rfl, rfl, rfl, start_prog_bytes hstart, rfl, rfl, rfl, rfl⟩
  · obtain ⟨haccepted, _⟩ := (command_next_iff _ s t).1 h
    exact (refusal_start_iff prog s).1 haccepted

end Sys2Proof.Machine

/-! SUPPORT. The step that fetches an instruction of the implied format (spec/30_encoding.md R59), and the statement about TAX
(spec/41_load_transfer.md R87). -/

namespace Sys2Proof.Machine

/-! ## An instruction that is its opcode alone -/

/-- The opcode of an implied instruction is the whole of its encoding, whatever stands behind it (R59). -/
theorem decodeFetched_of_format_impl {i : Instr} (hi : i.opcode.format = .impl) (fetchPc : Addr) (s : State) :
    decodeFetched fetchPc (opcodeByte i.opcode) s = .decoded i s := by
  have hop : decodeOpcode (opcodeByte i.opcode) = some i.opcode := decodeOpcode_opcodeByte i.opcode
  have hbytes : opcodeByte i.opcode :: operandBytesAt s i.opcode.format = encode i ++ [] := by
    cases i with
    | lda imm => cases hi
    | brk | tax | inx => rfl
  simp only [decodeFetched, hop, hbytes, decode_encode_append]

/-- The step that fetches such an opcode runs the instruction with `PC` past it (R74). -/
theorem State.Fetches.fetchDecodeExecute_of_format_impl {i : Instr} {s : State} (h : s.Fetches (opcodeByte i.opcode))
    (hi : i.opcode.format = .impl) : fetchDecodeExecute s = exec i s.advancePc := by
  rw [fetchDecodeExecute, h.fetch_eq, decodeFetched_of_format_impl hi]

/-- R87: the step that fetches 0xAA. -/
theorem State.Fetches.step_tax {s : State} (h : s.Fetches 0xAA#8) :
    step s = .next ((s.advancePc.setX s.a).applyNZ s.a) := by
  have hexec : fetchDecodeExecute s = exec .tax s.advancePc := h.fetchDecodeExecute_of_format_impl (i := .tax) rfl
  exact step_of_running_on h.1 (hexec.trans (exec_tax s.advancePc)) h.1

/-! ## The statement -/

/-- Settles O7: the handler writes `X` and the flags only, and the step runs it behind one advance of `PC`. -/
theorem taxResult : Obligations.TaxResult :=
  ⟨rfl, exec_tax, fun _ hfetch => hfetch.step_tax⟩

end Sys2Proof.Machine

/-! SUPPORT. The byte increment in exact arithmetic, the step that fetches INX, and the statement about it (spec/42_increment.md R88,
R89). -/

namespace Sys2Proof.Machine

/-- R89: the exact sum taken mod 2^8 is the byte increment. -/
theorem ofNat_eq_incrementByte (v : Byte) : BitVec.ofNat 8 ((v.toNat + 1) % 2 ^ 8) = incrementByte v := by
  refine BitVec.eq_of_toNat_eq ?_
  rw [BitVec.toNat_ofNat, Nat.mod_mod]
  exact (Reference.toNat_incrementByte v).symm

/-- R88: the step that fetches 0xE8. -/
theorem State.Fetches.step_inx {s : State} (h : s.Fetches 0xE8#8) :
    step s = .next ((s.advancePc.setX (incrementByte s.x)).applyNZ (incrementByte s.x)) := by
  have hexec : fetchDecodeExecute s = exec .inx s.advancePc := h.fetchDecodeExecute_of_format_impl (i := .inx) rfl
  exact step_of_running_on h.1 (hexec.trans (exec_inx s.advancePc)) h.1

/-! ## The statement -/

/-- Settles O8: the handler writes the incremented `X` and the flags N and Z only, and the step runs it behind one advance of `PC`. -/
theorem inxResult : Obligations.InxResult := by
  refine ⟨rfl, fun s v hv => ?_, fun s v hv hfetch => ?_⟩
  · obtain rfl : v = incrementByte s.x := hv.trans (ofNat_eq_incrementByte s.x)
    exact ⟨exec_inx s, readFlag_updateNZ_of_ne .carry _ _ nofun nofun, readFlag_updateNZ_of_ne .overflow _ _ nofun nofun⟩
  · obtain rfl : v = incrementByte s.x := hv.trans (ofNat_eq_incrementByte s.x)
    exact hfetch.step_inx

end Sys2Proof.Machine

/-! SUPPORT. The step that fetches BRK, and the statement about it (spec/43_control.md R78, R90). -/

namespace Sys2Proof.Machine

/-- R90: the step that fetches 0x00 halts behind one advance of `PC` and leaves no program, so no more of it than that byte counts. -/
theorem State.Fetches.step_brk {s : State} (h : s.Fetches 0x00#8) :
    step s = .next { s.advancePc.halt with prog := [] } := by
  have hexec : fetchDecodeExecute s = exec .brk s.advancePc := h.fetchDecodeExecute_of_format_impl (i := .brk) rfl
  have hended : s.advancePc.halt.rs ≠ .running := nofun
  rw [step_of_running h.1 (hexec.trans (exec_brk s.advancePc)), State.releaseProgram_of_ended _ hended]

/-! ## The statement -/

/-- Settles O9: the handler writes `RS` only, the step runs it behind one advance of `PC`, and no other byte at `PC` leaves a step of a
run HALTED. -/
theorem brkHalts : Obligations.BrkHalts := by
  refine ⟨rfl, exec_brk, fun s hfetch => ⟨⟨_, hfetch.step_brk, rfl⟩, fun other hother => ?_, fun hok hlast => ?_⟩,
    fun s t hr hstep hhalted => ?_⟩
  · have hfetch' : State.Fetches { s with prog := other } 0x00#8 := ⟨hfetch.1, hother⟩
    exact hfetch'.step_brk.trans hfetch.step_brk.symm
  · exact (hok.toNat_succ_of_byteAt hfetch.2).trans hlast
  · obtain ⟨t', hstep', _, hiff, _⟩ := step_rs_iff hr
    obtain rfl : t = t' := Host.Outcome.next.inj (hstep.symm.trans hstep')
    exact ⟨hr, hiff.1 hhalted⟩

end Sys2Proof.Machine

/-! SUPPORT. Construction (spec/60_exceptions.md R102, R103). -/

namespace Sys2Proof.Machine

/-- R102: CONSTRUCT is accepted in every state and leaves nothing of it. -/
theorem command_construct (s : State) : command .construct s = .next State.reset :=
  (command_next_iff .construct s State.reset).2 ⟨rfl, rfl⟩

/-! ## The statement -/

/-- Settles O1: CONSTRUCT gives the reset state, whose fields are the rule's values. -/
theorem constructionState : Obligations.ConstructionState := fun s =>
  ⟨State.reset, command_construct s, State.reset_pc, State.reset_a, State.reset_x, State.reset_sp, State.reset_p,
    State.reset_rs, State.reset_fr⟩

end Sys2Proof.Machine

/-! SUPPORT. Decode and encode are inverse on whole sequences (spec/30_encoding.md sections 1 to 3), and the statement about them. -/

namespace Sys2Proof

/-- Whatever decodes is the encoding of what it decodes to, followed by the rest: each row takes its own bytes off, and no other opcode
byte selects the row. -/
theorem eq_encode_append_of_decode {bytes : List Byte} {i : Instr} {rest : List Byte} (h : decode bytes = .ok (i, rest)) :
    bytes = encode i ++ rest := by
  cases bytes with
  | nil => cases h
  | cons op tail =>
    rw [decode_cons] at h
    rcases decodeOpcode_cases op with ⟨rfl, hd⟩ | ⟨rfl, hd⟩ | ⟨rfl, hd⟩ | ⟨rfl, hd⟩ | ⟨_, _, _, _, hd⟩
    · rw [hd] at h; cases h; rfl
    · rw [hd] at h
      cases tail with
      | nil => cases h
      | cons imm tail => cases h; rfl
    · rw [hd] at h; cases h; rfl
    · rw [hd] at h; cases h; rfl
    · rw [hd] at h; cases h

/-- Settles O22: the encoding decodes to its instruction and rest, and nothing else does. -/
theorem decodeEncodeAgree : Obligations.DecodeEncodeAgree :=
  fun _ i rest => ⟨eq_encode_append_of_decode, fun h => h ▸ decode_encode_append i rest⟩

end Sys2Proof

/-! SUPPORT. What a step and an instruction write and what they leave (spec/40_fetch_decode.md, 60_exceptions.md section 1), and the
statements about single steps. -/

namespace Sys2Proof.Machine

/-! ## What a step writes -/

/-- A step of a run writes one of three things: a fault with `PC`, `BRK`'s halt with `PC`, or registers with the run going on. Where
it ends the run it leaves no program, and `SP` it never writes. -/
theorem step_writes {s : State} (hr : s.rs = .running) :
    ∃ t, step s = .next t ∧
      ((∃ pc c, t = { s with pc := pc, rs := .faulted, fr := some c, prog := [] }) ∨
        (∃ pc, t = { s with pc := pc, rs := .halted, prog := [] }) ∨
        (∃ pc a x p, t = { s with pc := pc, a := a, x := x, p := p })) := by
  rcases step_cases hr with ⟨_, e⟩ | ⟨_, e⟩ | ⟨_, _, e⟩ | ⟨_, _, _, e⟩ | ⟨_, e⟩ | ⟨_, e⟩ | ⟨_, _, _, _, _, _, e⟩
  · exact ⟨_, e, .inl ⟨_, _, rfl⟩⟩
  · exact ⟨_, e, .inr (.inl ⟨_, rfl⟩)⟩
  · exact ⟨_, e, .inl ⟨_, _, rfl⟩⟩
  · exact ⟨_, e, .inr (.inr ⟨_, _, _, _, rfl⟩)⟩
  · exact ⟨_, e, .inr (.inr ⟨_, _, _, _, rfl⟩)⟩
  · exact ⟨_, e, .inr (.inr ⟨_, _, _, _, rfl⟩)⟩
  · exact ⟨_, e, .inl ⟨_, _, rfl⟩⟩

/-- No step writes `SP` (R21). -/
theorem step_sp {s t : State} (h : step s = .next t) : t.sp = s.sp := by
  by_cases hr : s.rs = .running
  · obtain ⟨u, hu, hwrites⟩ := step_writes hr
    obtain rfl : t = u := Host.Outcome.next.inj (h.symm.trans hu)
    rcases hwrites with ⟨_, _, rfl⟩ | ⟨_, rfl⟩ | ⟨_, _, _, _, rfl⟩
    · rfl
    · rfl
    · rfl
  · rw [step_of_not_running hr] at h
    cases h
    rfl

/-- A step keeps `FR` and `RS` in agreement: it writes a record exactly when it writes FAULTED (R38). -/
theorem step_keeps_recordIffFaulted {s t : State} (hs : s.fr.isSome = true ↔ s.rs = .faulted) (h : step s = .next t) :
    t.fr.isSome = true ↔ t.rs = .faulted := by
  by_cases hr : s.rs = .running
  · obtain ⟨u, hu, hwrites⟩ := step_writes hr
    obtain rfl : t = u := Host.Outcome.next.inj (h.symm.trans hu)
    rcases hwrites with ⟨_, _, rfl⟩ | ⟨_, rfl⟩ | ⟨_, _, _, _, rfl⟩
    · simp
    · simpa [hr] using hs
    · exact hs
  · rw [step_of_not_running hr] at h
    cases h
    exact hs

/-- A faulting step of a run leaves the registers but `PC` as they were (R95, D8). -/
theorem registers_of_step_faulted {s t : State} (hr : s.rs = .running) (h : step s = .next t) (hf : t.rs = .faulted) :
    t.a = s.a ∧ t.x = s.x ∧ t.sp = s.sp ∧ t.p = s.p := by
  obtain ⟨u, hu, hwrites⟩ := step_writes hr
  obtain rfl : t = u := Host.Outcome.next.inj (h.symm.trans hu)
  rcases hwrites with ⟨_, _, rfl⟩ | ⟨_, rfl⟩ | ⟨_, _, _, _, rfl⟩
  · exact ⟨rfl, rfl, rfl, rfl⟩
  · cases hf
  · cases hr.symm.trans hf

/-! ## LDA without its operand -/

/-- The opcode of LDA with no byte at `PC` raises ProgramTruncated with that index (R86, D7). -/
theorem decodeFetched_lda_of_byteAt_eq_none {s : State} (hv : s.prog.byteAt s.pc.toNat = none) (fetchPc : Addr) :
    decodeFetched fetchPc 0xA9#8 s = .raised (s.raise (.programTruncated s.pc)) := by
  have hop : decodeOpcode 0xA9#8 = some .lda := decodeOpcode_opcodeByte .lda
  have hbytes : operandBytesAt s Opcode.lda.format = [] := by
    rw [Opcode.format, operandBytesAt_imm8, hv]
    rfl
  simp only [decodeFetched, hop, hbytes]
  rfl

/-- R86: the step that fetches 0xA9 with no byte behind it. -/
theorem State.Fetches.step_lda_of_byteAt_eq_none {s : State} (h : s.Fetches 0xA9#8)
    (hv : s.prog.byteAt (s.pc + 1#16).toNat = none) :
    step s = .next (s.advancePc.raise (.programTruncated (s.pc + 1#16))).releaseProgram := by
  refine step_of_running h.1 ?_
  rw [fetchDecodeExecute, h.fetch_eq, decodeFetched_lda_of_byteAt_eq_none (s := s.advancePc) hv]
  rfl

/-! ## The bytes at `PC` and the instruction they hold -/

/-- The bytes from an index on begin with the byte that stands there. -/
theorem Memory.bytes_drop_of_byteAt {m : Memory} (h : m.wf = true) {i : Nat} {b : Byte} (hb : m.byteAt i = some b) :
    m.bytes.drop i = b :: m.bytes.drop (i + 1) := by
  rw [Memory.byteAt_of_wf h] at hb
  obtain ⟨hlt, rfl⟩ := List.getElem?_eq_some_iff.1 hb
  exact List.drop_eq_getElem_cons hlt

/-- The byte that begins the bytes from an index on stands at the index, and the rest from the next index on. -/
theorem Memory.byteAt_of_bytes_drop {m : Memory} (h : m.wf = true) {i : Nat} {b : Byte} {bs : List Byte}
    (hd : m.bytes.drop i = b :: bs) : m.byteAt i = some b ∧ m.bytes.drop (i + 1) = bs := by
  constructor
  · rw [Memory.byteAt_of_wf h, ← List.head?_drop, hd, List.head?_cons]
  · rw [← List.tail_drop, hd, List.tail_cons]

/-- An instruction always answers a next state. -/
theorem exists_exec_next (i : Instr) (s : State) : ∃ t, exec i s = .next t := by
  cases i with
  | brk => exact ⟨_, exec_brk s⟩
  | lda imm => exact ⟨_, exec_lda imm s⟩
  | tax => exact ⟨_, exec_tax s⟩
  | inx => exact ⟨_, exec_inx s⟩

/-- Where an instruction's encoding stands at `PC`, the step's handler is that instruction's, with `PC` past the opcode (R74, R76). -/
theorem State.ProgramOk.fetchDecodeExecute_of_encode {s : State} (hok : s.ProgramOk) (hr : s.rs = .running) {i : Instr}
    {rest : List Byte} (h : s.prog.bytes.drop s.pc.toNat = encode i ++ rest) :
    fetchDecodeExecute s = exec i s.advancePc := by
  obtain ⟨hop, htail⟩ := Memory.byteAt_of_bytes_drop hok.canonical h
  have hfetch : s.Fetches (opcodeByte i.opcode) := ⟨hr, hop⟩
  cases i with
  | brk | tax | inx => exact hfetch.fetchDecodeExecute_of_format_impl rfl
  | lda imm =>
    obtain ⟨himm, _⟩ := Memory.byteAt_of_bytes_drop hok.canonical htail
    rw [← hok.toNat_succ_of_byteAt hop] at himm
    have hlda : s.Fetches 0xA9#8 := hfetch
    rw [fetchDecodeExecute, hlda.fetch_eq, decodeFetched_lda (s := s.advancePc) himm]

/-- A step that leaves the run going on consumes exactly the encoding of one instruction: its bytes stand at the old `PC` and the
bytes at the new `PC` follow them. -/
theorem State.ProgramOk.consumes_of_step_running {s t : State} (hok : s.ProgramOk) (hr : s.rs = .running)
    (h : step s = .next t) (ht : t.rs = .running) :
    ∃ i : Instr, s.prog.bytes.drop s.pc.toNat = encode i ++ s.prog.bytes.drop t.pc.toNat ∧
      t.pc.toNat = s.pc.toNat + (encode i).length := by
  have next_eq {u : State} (e : step s = .next u) : t = u := Host.Outcome.next.inj (h.symm.trans e)
  have implied (i : Instr) (hi : encode i = [opcodeByte i.opcode])
      (hop : s.prog.byteAt s.pc.toNat = some (opcodeByte i.opcode)) (hpc : t.pc = s.pc + 1#16) :
      s.prog.bytes.drop s.pc.toNat = encode i ++ s.prog.bytes.drop t.pc.toNat ∧
        t.pc.toNat = s.pc.toNat + (encode i).length := by
    rw [hpc, hok.toNat_succ_of_byteAt hop, hi]
    exact ⟨Memory.bytes_drop_of_byteAt hok.canonical hop, rfl⟩
  rcases step_cases hr with
    ⟨_, e⟩ | ⟨_, e⟩ | ⟨_, _, e⟩ | ⟨v, hop, hv, e⟩ | ⟨hop, e⟩ | ⟨hop, e⟩ | ⟨_, _, _, _, _, _, e⟩
  · cases next_eq e; cases ht
  · cases next_eq e; cases ht
  · cases next_eq e; cases ht
  · have hpc : t.pc.toNat = s.pc.toNat + 1 + 1 := by
      rw [← hok.toNat_succ_of_byteAt hop, ← hok.toNat_succ_of_byteAt hv, next_eq e]
      rfl
    rw [hok.toNat_succ_of_byteAt hop] at hv
    refine ⟨.lda v, ?_, hpc⟩
    rw [hpc, Memory.bytes_drop_of_byteAt hok.canonical hop, Memory.bytes_drop_of_byteAt hok.canonical hv]
    rfl
  · exact ⟨.tax, implied .tax rfl hop (congrArg State.pc (next_eq e))⟩
  · exact ⟨.inx, implied .inx rfl hop (congrArg State.pc (next_eq e))⟩
  · cases next_eq e; cases ht

/-! ## The statements -/

/-- Settles O6: the operand's index is PROG_LEN, where the program holds no byte. -/
theorem ldaWithoutOperandIsTruncated : Obligations.LdaWithoutOperandIsTruncated := by
  intro s hok hfetch hlast
  have hv : s.prog.byteAt (s.pc + 1#16).toNat = none := (hok.byteAt_succ_eq_none_iff hfetch.2).2 hlast
  exact ⟨⟨_, hfetch.step_lda_of_byteAt_eq_none hv, rfl⟩, (hok.toNat_succ_of_byteAt hfetch.2).trans hlast⟩

/-- Settles O10, instruction by instruction; the bits of `P` that stay are those of the mask 0x7D. -/
theorem frameOfInstructions : Obligations.FrameOfInstructions := by
  intro i s t h
  have hbits (j : Nat) (hz : j ≠ 1) (hn : j ≠ 7) : t.p.getLsbD j = s.p.getLsbD j :=
    getLsbD_eq_of_mask_eq (exec_keeps_mask h) hz hn
  rcases exec_cases h with ⟨rfl, rfl⟩ | ⟨imm, rfl, rfl⟩ | ⟨rfl, rfl⟩ | ⟨rfl, rfl⟩
  · exact ⟨rfl, rfl, rfl, fun _ => rfl, hbits, fun _ => rfl, fun _ => rfl, fun _ _ => rfl, fun hi => absurd rfl hi⟩
  · exact ⟨rfl, rfl, rfl, fun _ => rfl, hbits, nofun, fun hi => absurd rfl (hi imm), fun _ _ => rfl, fun _ => rfl⟩
  · exact ⟨rfl, rfl, rfl, fun _ => rfl, hbits, nofun, fun _ => rfl, fun hi _ => absurd rfl hi, fun _ => rfl⟩
  · exact ⟨rfl, rfl, rfl, fun _ => rfl, hbits, nofun, fun _ => rfl, fun _ hi => absurd rfl hi, fun _ => rfl⟩

/-- Settles O16: a step of a run writes one of three next states, and any other step is the identity. -/
theorem everyStepHasNextState : Obligations.EveryStepHasNextState := by
  intro s
  by_cases hr : s.rs = .running
  · obtain ⟨t, ht, _⟩ := step_writes hr
    exact ⟨t, ht⟩
  · exact ⟨s, step_of_not_running hr⟩

/-- Settles O18: the bytes consumed are an encoding, which decodes to its instruction and has at least its opcode byte. -/
theorem stepConsumesItsInstruction : Obligations.StepConsumesItsInstruction := by
  intro s t hinv hr h ht
  obtain ⟨i, hbytes, hpc⟩ := hinv.programOk.consumes_of_step_running hr h ht
  have hpos : 0 < (encode i).length := Nat.succ_pos _
  exact ⟨i, hbytes ▸ decode_encode_append i _, hpc, by omega⟩

/-- Settles O24: a canonical program holds a byte exactly below PROG_LEN. -/
theorem memReadBoundsChecked : Obligations.MemReadBoundsChecked := by
  intro s addr hok
  refine ⟨fun hpast => memRead_error ((hok.byteAt_eq_none_iff _).2 hpast), fun hlt => ?_⟩
  rcases memRead_cases s addr with ⟨b, hb, hread⟩ | ⟨hnone, _⟩
  · exact ⟨b, Memory.byteAt_of_wf hok.canonical _ ▸ hb, hread⟩
  · exact absurd ((hok.byteAt_eq_none_iff _).1 hnone) (Nat.not_le.2 hlt)

/-- Settles O27: of the things a step can do three fault, and each is a row of the table. -/
theorem faultedStepLeaves : Obligations.FaultedStepLeaves := by
  intro s t hinv hr h hf
  obtain ⟨ha, hx, hsp, hp⟩ := registers_of_step_faulted hr h hf
  refine ⟨ha, hx, hsp, hp, ?_⟩
  have hok : s.ProgramOk := hinv.programOk
  have next_eq {u : State} (e : step s = .next u) : t = u := Host.Outcome.next.inj (h.symm.trans e)
  rcases step_cases hr with
    ⟨hop, e⟩ | ⟨_, e⟩ | ⟨hop, hv, e⟩ | ⟨_, _, _, e⟩ | ⟨_, e⟩ | ⟨_, e⟩ | ⟨op, hop, hbrk, hlda, htax, hinx, e⟩
  · have hend : s.pc.toNat = s.progLen := Nat.le_antisymm (hinv.pcInBounds hr) ((hok.byteAt_eq_none_iff _).1 hop)
    cases next_eq e
    exact .inl ⟨hend, rfl, rfl, rfl, rfl⟩
  · cases next_eq e; cases hf
  · have hlast : s.pc.toNat + 1 = s.progLen := (hok.byteAt_succ_eq_none_iff hop).1 hv
    have hpc : (s.pc + 1#16).toNat = s.progLen := (hok.toNat_succ_of_byteAt hop).trans hlast
    cases next_eq e
    exact .inr (.inl ⟨⟨hr, hop⟩, hlast, hpc, rfl, rfl, hpc⟩)
  · cases next_eq e; cases hr.symm.trans hf
  · cases next_eq e; cases hr.symm.trans hf
  · cases next_eq e; cases hr.symm.trans hf
  · have hillegal : op ∉ [0x00#8, 0xA9#8, 0xAA#8, 0xE8#8] := by simp [hbrk, hlda, htax, hinx]
    cases next_eq e
    exact .inr (.inr ⟨op, ⟨hr, hop⟩, hillegal, hok.toNat_succ_of_byteAt hop, rfl, rfl, rfl⟩)

/-- Settles O35: which case a step takes depends on `RS`, `PC` and the program, and in each case `SP` is not read and `P`
only by its own flag update. -/
theorem statusAndStackPointerNeverRead : Obligations.StatusAndStackPointerNeverRead := by
  intro s t q z h
  have next_eq {u : State} (e : step s = .next u) : t = u := Host.Outcome.next.inj (h.symm.trans e)
  by_cases hr : s.rs = .running
  · have fetches {op : Byte} (hop : s.prog.byteAt s.pc.toNat = some op) : State.Fetches { s with p := q, sp := z } op :=
      ⟨hr, hop⟩
    rcases step_cases hr with
      ⟨hop, e⟩ | ⟨hop, e⟩ | ⟨hop, hv, e⟩ | ⟨v, hop, hv, e⟩ | ⟨hop, e⟩ | ⟨hop, e⟩ | ⟨op, hop, hbrk, hlda, htax, hinx, e⟩
    · cases next_eq e
      exact ⟨_, step_of_byteAt_eq_none (s := { s with p := q, sp := z }) hr hop, rfl, rfl⟩
    · cases next_eq e
      exact ⟨_, (fetches hop).step_brk, rfl, rfl⟩
    · cases next_eq e
      exact ⟨_, (fetches hop).step_lda_of_byteAt_eq_none hv, rfl, rfl⟩
    · cases next_eq e
      exact ⟨_, (fetches hop).step_lda hv, rfl, rfl⟩
    · cases next_eq e
      exact ⟨_, (fetches hop).step_tax, rfl, rfl⟩
    · cases next_eq e
      exact ⟨_, (fetches hop).step_inx, rfl, rfl⟩
    · have hnone : decodeOpcode op = none := (decodeOpcode_eq_none_iff op).2 (by simp [hbrk, hlda, htax, hinx])
      cases next_eq e
      exact ⟨_, (fetches hop).step_of_decodeOpcode_eq_none hnone, rfl, rfl⟩
  · cases next_eq (step_of_not_running hr)
    exact ⟨_, step_of_not_running (s := { s with p := q, sp := z }) hr, rfl, rfl⟩

/-- Settles O15: the machine's guard and the reference's are the same. -/
theorem noStepOutsideRun : Obligations.NoStepOutsideRun :=
  fun _ hr => ⟨step_of_not_running hr, fun _ => if_neg hr⟩

/-- Settles O17: what decodes is an encoding, so the step's handler is its instruction's, and the release follows it. -/
theorem stepRunsDecodedInstruction : Obligations.StepRunsDecodedInstruction := by
  intro s i rest hok hr hdecode
  obtain ⟨t, ht⟩ := exists_exec_next i s.advancePc
  have hexec : fetchDecodeExecute s = exec i s.advancePc :=
    hok.fetchDecodeExecute_of_encode hr (eq_encode_append_of_decode hdecode)
  exact ⟨t, ht, step_of_running hr (hexec.trans ht)⟩

end Sys2Proof.Machine

/-! SUPPORT. The fields of the fault record (spec/10_state.md section 6, 60_exceptions.md section 1), and the statement about them. -/

namespace Sys2Proof.Machine

/-- The fault record with given fields (R92). -/
def FaultRecord.ofFields (cause : BitVec 2) (opcode : Byte) (pc : Addr) : FaultRecord :=
  if cause = 1#2 then some (.unimplementedOpcode opcode pc)
  else if cause = 2#2 then some (.programTruncated pc)
  else none

/-- The fields of a record give the record again. -/
theorem FaultRecord.ofFields_fields (f : FaultRecord) :
    ofFields (FaultRecord.cause f) (FaultRecord.opcode f) (FaultRecord.pc f) = f := by
  cases f with
  | none => rfl
  | some c =>
    cases c with
    | unimplementedOpcode op pc => rfl
    | programTruncated pc => rfl

/-- Settles O28: the codes and fields are the definitions' own, and a record is computed back from its fields. -/
theorem encodingsOfRunStateAndRecord : Obligations.EncodingsOfRunStateAndRecord := by
  refine ⟨⟨rfl, rfl, rfl, rfl⟩, ⟨rfl, rfl, rfl⟩, fun _ _ => ⟨rfl, rfl, rfl⟩, fun _ => ⟨rfl, rfl, rfl⟩, ?_⟩
  intro f g hcause hopcode hpc
  calc f = FaultRecord.ofFields (FaultRecord.cause f) (FaultRecord.opcode f) (FaultRecord.pc f) := f.ofFields_fields.symm
    _ = FaultRecord.ofFields (FaultRecord.cause g) (FaultRecord.opcode g) (FaultRecord.pc g) := by rw [hcause, hopcode, hpc]
    _ = g := g.ofFields_fields

end Sys2Proof.Machine

/-! SUPPORT. When a host command is accepted (spec/60_exceptions.md section 4), and the statements about the host interface. -/

namespace Sys2Proof.Machine

/-! ## Accepted or refused -/

/-- Whether a command is refused depends on `RS` and the command alone. -/
theorem HostCommand.refusal_of_rs (c : HostCommand) {s u : State} (h : u.rs = s.rs) : c.refusal u = c.refusal s := by
  have hrun : refusalWhileRunning u = refusalWhileRunning s := by rw [refusalWhileRunning, refusalWhileRunning, h]
  cases c with
  | construct => rfl
  | start prog => simp only [refusal, hrun]
  | read | updateN r | updateZ r | updateNZ r => exact hrun

/-- During a run every command but CONSTRUCT is refused as such (D10, D12, D13). -/
theorem HostCommand.refusal_of_running {c : HostCommand} {s : State} (hr : s.rs = .running) (hc : c ≠ .construct) :
    c.refusal s = some .runInProgress := by
  have hrun : refusalWhileRunning s = some .runInProgress := if_pos hr
  cases c with
  | construct => exact absurd rfl hc
  | start prog => simp only [refusal, hrun]
  | read | updateN r | updateZ r | updateNZ r => exact hrun

/-- Outside a run every command but START is accepted (R102). -/
theorem HostCommand.refusal_of_not_running {c : HostCommand} {s : State} (hr : s.rs ≠ .running) (hc : ∀ prog, c ≠ .start prog) :
    c.refusal s = none := by
  have hrun : refusalWhileRunning s = none := if_neg hr
  cases c with
  | construct => rfl
  | start prog => exact absurd rfl (hc prog)
  | read | updateN r | updateZ r | updateNZ r => exact hrun

/-- Outside a run a START of more bytes than a run may have is refused as such (D3). -/
theorem HostCommand.refusal_start_tooLong {s : State} {prog : List Byte} (hr : s.rs ≠ .running) (h : 0xFFFF < prog.length) :
    (HostCommand.start prog).refusal s = some .programTooLong := by
  have hrun : refusalWhileRunning s = none := if_neg hr
  have hlong : programWellFormed prog = false := decide_eq_false (Nat.not_le.2 h)
  simp [refusal, hrun, hlong]

/-- A refused command answers its refusal. -/
theorem command_of_refusal {c : HostCommand} {s : State} {r : Refusal} (h : c.refusal s = some r) : command c s = .refused r := by
  rw [command, h]

/-- Outside a run every command but START answers its effect. -/
theorem command_of_not_running {c : HostCommand} {s : State} (hr : s.rs ≠ .running) (hc : ∀ prog, c ≠ .start prog) :
    command c s = .next (c.effect s) :=
  (command_next_iff c s _).2 ⟨HostCommand.refusal_of_not_running hr hc, rfl⟩

/-- Outside a run a START of a program a run may have begins its run (R104). -/
theorem command_start {s : State} {prog : List Byte} (hr : s.rs ≠ .running) (h : prog.length ≤ 0xFFFF) :
    command (.start prog) s = .next (s.beginRun prog) :=
  (command_next_iff _ s _).2 ⟨(refusal_start_iff prog s).2 ⟨hr, h⟩, rfl⟩

/-- READ answers the observation outside a run (R105). -/
theorem hostRead_of_not_running {s : State} (hr : s.rs ≠ .running) : hostRead s = .next s.observation := by
  rw [hostRead, HostCommand.refusal_of_not_running (c := .read) hr nofun]

/-- READ is refused during a run (D12). -/
theorem hostRead_of_running {s : State} (hr : s.rs = .running) : hostRead s = .refused .runInProgress := by
  rw [hostRead, HostCommand.refusal_of_running (c := .read) hr nofun]

/-! ## The statements -/

/-- Settles O26: outside a run acceptance depends on `RS`, and no effect reads the program. -/
theorem programNotRetained : Obligations.ProgramNotRetained := by
  intro s old hr
  refine ⟨?_, step_of_not_running (s := { s with prog := old }) hr, fun prog => ?_, fun c t h => ?_⟩
  · rw [hostRead_of_not_running hr, hostRead_of_not_running (s := { s with prog := old }) hr]
    rfl
  · rw [command, command, HostCommand.refusal_of_rs (u := { s with prog := old }) _ rfl]
    rfl
  · obtain ⟨haccepted, rfl⟩ := (command_next_iff c s t).1 h
    have haccepted' : c.refusal { s with prog := old } = none := (c.refusal_of_rs rfl).trans haccepted
    refine ⟨_, (command_next_iff c _ _).2 ⟨haccepted', rfl⟩, ?_⟩
    cases c with
    | construct | start prog | read | updateN r | updateZ r | updateNZ r => rfl

/-- Settles O29: outside a run a step is the identity, and of the commands, which are accepted there, only CONSTRUCT and START write `RS`
or `FR`. -/
theorem faultRecordLifetime : Obligations.FaultRecordLifetime := by
  intro s hf
  have hr : s.rs ≠ .running := by rw [hf]; nofun
  refine ⟨⟨s, step_of_not_running hr, rfl, hf⟩, fun c hconstruct hstart => ⟨_, command_of_not_running hr hstart, ?_⟩,
    fun prog hlen => ⟨_, command_start hr hlen, rfl⟩, ⟨_, command_construct s, rfl⟩⟩
  cases c with
  | construct => exact absurd rfl hconstruct
  | start prog => exact absurd rfl (hstart prog)
  | read | updateN r | updateZ r | updateNZ r => exact ⟨rfl, hf⟩

/-- Settles O31, from the refusals during a run and of a program that is too long. -/
theorem commandsRefused : Obligations.CommandsRefused :=
  ⟨fun _ _ hr hc => command_of_refusal (HostCommand.refusal_of_running hr hc), fun _ hr => hostRead_of_running hr,
    fun _ _ hr hlong => command_of_refusal (HostCommand.refusal_start_tooLong hr hlong), fun s _ => ⟨_, command_construct s⟩⟩

/-- Settles O32: READ is accepted outside a run, and its effect is the identity. -/
theorem readReturnsObservation : Obligations.ReadReturnsObservation :=
  fun _ hr => ⟨hostRead_of_not_running hr, command_of_not_running hr nofun⟩

/-- Settles O33: the flag commands are accepted outside a run, and their effects write `P` only. -/
theorem flagCommandsWriteStatusOnly : Obligations.FlagCommandsWriteStatusOnly :=
  fun _ _ hr => ⟨command_of_not_running hr nofun, command_of_not_running hr nofun, command_of_not_running hr nofun⟩

/-- Settles O34, command by command. -/
theorem hostWritesNoRegister : Obligations.HostWritesNoRegister := by
  intro s t c hc h
  obtain ⟨_, rfl⟩ := (command_next_iff c s t).1 h
  cases c with
  | construct => exact absurd rfl hc
  | start prog => exact ⟨rfl, rfl, rfl, .inl rfl, .inr ⟨prog, rfl, rfl⟩⟩
  | read => exact ⟨rfl, rfl, rfl, .inl rfl, .inl rfl⟩
  | updateN r => exact ⟨rfl, rfl, rfl, .inr ⟨r, .inl rfl⟩, .inl rfl⟩
  | updateZ r => exact ⟨rfl, rfl, rfl, .inr ⟨r, .inr (.inl rfl)⟩, .inl rfl⟩
  | updateNZ r => exact ⟨rfl, rfl, rfl, .inr ⟨r, .inr (.inr rfl)⟩, .inl rfl⟩

end Sys2Proof.Machine

/-! SUPPORT. The invariant of every state (spec/10_state.md sections 2 to 6): construction meets it, steps and commands keep it; the values
`P` takes (section 4); and the statements about them. -/

namespace Sys2Proof.Machine

/-! ## Construction, steps and commands -/

/-- The empty program is one a run may have. -/
theorem State.ProgramOk.of_prog_eq_nil {s : State} (h : s.prog = []) : s.ProgramOk :=
  ⟨by rw [h]; decide, by rw [State.progLen, h]; decide⟩

/-- Whether a program is one a run may have depends on the program alone. -/
theorem State.ProgramOk.of_prog_eq {s t : State} (hok : s.ProgramOk) (h : t.prog = s.prog) : t.ProgramOk :=
  ⟨h ▸ hok.canonical, State.progLen_of_prog h ▸ hok.fits⟩

/-- The construction state meets the invariant. -/
theorem State.inv_reset : State.reset.Inv where
  programOk := .of_prog_eq_nil rfl
  pcInBounds := nofun
  noProgramOutsideRun _ := rfl
  spZero := rfl
  onlyNZ := by decide
  recordIffFaulted := by simp

/-- A step of a run leaves a program a run may have: the same, or none. -/
theorem State.ProgramOk.step_of_running {s t : State} (hok : s.ProgramOk) (hr : s.rs = .running) (h : step s = .next t) :
    t.ProgramOk := by
  have hprog := step_prog hr h
  by_cases ht : t.rs = .running
  · exact hok.of_prog_eq (hprog.trans (if_pos ht))
  · exact .of_prog_eq_nil (hprog.trans (if_neg ht))

/-- Every step keeps the invariant. -/
theorem State.Inv.step {s t : State} (hinv : s.Inv) (h : step s = .next t) : t.Inv := by
  by_cases hr : s.rs = .running
  · have hprog := step_prog hr h
    obtain ⟨hpc, _⟩ := programCounterIncrement.2 s t hinv hr h
    exact {
      programOk := hinv.programOk.step_of_running hr h
      pcInBounds := fun ht => hpc.trans_eq (State.progLen_of_prog (hprog.trans (if_pos ht))).symm
      noProgramOutsideRun := fun ht => hprog.trans (if_neg ht)
      spZero := (step_sp h).trans hinv.spZero
      onlyNZ := (step_keeps_mask hr h).trans hinv.onlyNZ
      recordIffFaulted := step_keeps_recordIffFaulted hinv.recordIffFaulted h }
  · rw [step_of_not_running hr] at h
    cases h
    exact hinv

/-- A START of at most 0xFFFF bytes begins a run on a program a run may have. -/
theorem State.programOk_beginRun (s : State) {prog : List Byte} (hlen : prog.length ≤ 0xFFFF) : (s.beginRun prog).ProgramOk :=
  ⟨Memory.wf_beginRun s prog, (Memory.length_ofBytes prog).trans_le hlen⟩

/-- A run begun on a program of at most 0xFFFF bytes meets the invariant. -/
theorem State.Inv.beginRun {s : State} (hinv : s.Inv) {prog : List Byte} (hlen : prog.length ≤ 0xFFFF) : (s.beginRun prog).Inv where
  programOk := s.programOk_beginRun hlen
  pcInBounds _ := Nat.zero_le _
  noProgramOutsideRun hr := absurd rfl hr
  spZero := hinv.spZero
  onlyNZ := hinv.onlyNZ
  recordIffFaulted := by simp

/-- Writing no bit of `P` but N and Z keeps the invariant. -/
theorem State.Inv.setP {s : State} (hinv : s.Inv) {q : Byte} (hq : q &&& 0x7D#8 = s.p &&& 0x7D#8) : (s.setP q).Inv :=
  { hinv with onlyNZ := hq.trans hinv.onlyNZ, programOk := hinv.programOk.of_prog_eq rfl }

/-- Every accepted host command keeps the invariant. -/
theorem State.Inv.command {s t : State} {c : HostCommand} (hinv : s.Inv) (h : command c s = .next t) : t.Inv := by
  obtain ⟨haccepted, rfl⟩ := (command_next_iff c s t).1 h
  cases c with
  | construct => exact State.inv_reset
  | start prog => exact hinv.beginRun ((refusal_start_iff prog s).1 haccepted).2
  | read => exact hinv
  | updateN r => exact hinv.setP (updateN_mask r s.p)
  | updateZ r => exact hinv.setP (updateZ_mask r s.p)
  | updateNZ r => exact hinv.setP (updateNZ_mask r s.p)

/-! ## The values of `P` -/

/-- With every bit but N and Z zero, `P` has four values. -/
theorem eq_of_mask_eq_zero {p : Byte} (h : p &&& 0x7D#8 = 0x00#8) : p = 0x00#8 ∨ p = 0x02#8 ∨ p = 0x80#8 ∨ p = 0x82#8 := by
  have hbits : p = setBit (setBit 0x00#8 7 (p.getLsbD 7)) 1 (p.getLsbD 1) := by
    refine BitVec.eq_of_getLsbD_eq fun j _ => ?_
    rw [setBit_getLsbD _ _ _ _ (by decide), setBit_getLsbD _ _ _ _ (by decide)]
    by_cases h1 : j = 1
    · rw [if_pos h1, h1]
    · by_cases h7 : j = 7
      · rw [if_neg h1, if_pos h7, h7]
      · rw [if_neg h1, if_neg h7]
        exact getLsbD_eq_of_mask_eq (p := 0x00#8) h h1 h7
  rw [hbits]
  generalize p.getLsbD 7 = n, p.getLsbD 1 = z
  revert n z
  decide

/-- UpdateNZ never sets both N and Z: no result byte is zero and negative (R32). -/
theorem updateNZ_ne_0x82 (r p : Byte) : updateNZ r p ≠ 0x82#8 := by
  intro h
  have hz : (r == 0x00#8) = true := (readFlag_zero_updateNZ r p).symm.trans (by rw [h]; decide)
  have hn : r.getLsbD 7 = true := (readFlag_negative_updateNZ r p).symm.trans (by rw [h]; decide)
  rw [beq_iff_eq.1 hz] at hn
  cases hn

/-- What runs alone reach a host can reach. -/
theorem ReachableByRuns.reachable {s : State} (h : ReachableByRuns s) : Reachable s := by
  induction h with
  | constructed => exact .constructed
  | started prog _ h ih => exact .commanded (.start prog) ih h
  | stepped _ h ih => exact .stepped ih h

/-- In a reachable state `P` has one of the four values of N and Z. -/
theorem Reachable.status {s : State} (h : Reachable s) : s.StatusOfRuns ∨ s.p = 0x82#8 := by
  rcases eq_of_mask_eq_zero h.mask_eq_zero with hp | hp | hp | hp
  · exact .inl (.inl hp)
  · exact .inl (.inr (.inl hp))
  · exact .inl (.inr (.inr hp))
  · exact .inr hp

/-- Whether `P` is as runs leave it depends on `P` alone. -/
theorem State.StatusOfRuns.of_p_eq {s t : State} (hs : s.StatusOfRuns) (h : t.p = s.p) : t.StatusOfRuns := by
  rw [State.StatusOfRuns, h]
  exact hs

/-- By runs alone `P` never has both N and Z set: START keeps `P`, and a step keeps it or applies UpdateNZ. -/
theorem ReachableByRuns.statusOfRuns {s : State} (h : ReachableByRuns s) : s.StatusOfRuns := by
  induction h with
  | constructed => exact .inl rfl
  | @started s t prog _ hstart ih =>
    obtain ⟨_, rfl⟩ := (command_next_iff _ s t).1 hstart
    exact ih
  | @stepped s t hreach hstep ih =>
    by_cases hr : s.rs = .running
    · rcases step_p hr hstep with hp | ⟨r, hp⟩
      · exact ih.of_p_eq hp
      · exact (ReachableByRuns.stepped hreach hstep).reachable.status.resolve_right (hp ▸ updateNZ_ne_0x82 r s.p)
    · rw [step_of_not_running hr] at hstep
      cases hstep
      exact ih

/-! ## The statements -/

/-- Settles O37: field by field from what a step of a run leaves; outside a run a step is the identity. -/
theorem stepKeepsInvariant : Obligations.StepKeepsInvariant :=
  fun _ _ hinv h => hinv.step h

/-- Settles O38, command by command. -/
theorem commandKeepsInvariant : Obligations.CommandKeepsInvariant :=
  fun _ _ _ hinv h => hinv.command h

/-- Settles O36, field by field. -/
theorem resetMeetsInvariant : Obligations.ResetMeetsInvariant := State.inv_reset

/-- Settles O39, by induction on the way the state is reached. -/
theorem reachableStatesMeetInvariant : Obligations.ReachableStatesMeetInvariant :=
  fun _ h => h.of_kept State.inv_reset (fun _ _ _ _ hinv e => hinv.command e) (fun _ _ _ hinv e => hinv.step e)

/-- Settles O40: the bounds by induction on the way the state is reached; 0x82 by UPDATE_Z(0x00), then UPDATE_N(0x80). -/
theorem statusValuesOfReachableStates : Obligations.StatusValuesOfReachableStates :=
  ⟨fun _ h => h.statusOfRuns, fun _ h => h.status,
    ⟨_, .commanded (.updateN 0x80#8) (.commanded (.updateZ 0x00#8) .constructed rfl) rfl, by decide⟩⟩

end Sys2Proof.Machine

/-! SUPPORT. Every run ends (spec/40_fetch_decode.md section 4, 60_exceptions.md section 4), and the statements about whole runs. -/

namespace Sys2Proof.Machine

/-- After a step of a run the run has ended or goes on. -/
theorem exists_step_ended_or_running {s : State} (hr : s.rs = .running) :
    ∃ t, step s = .next t ∧ (t.Ended ∨ t.rs = .running) := by
  obtain ⟨t, ht, hwrites⟩ := step_writes hr
  rcases hwrites with ⟨_, _, rfl⟩ | ⟨_, rfl⟩ | ⟨_, _, _, _, rfl⟩
  · exact ⟨_, ht, .inl (.inr rfl)⟩
  · exact ⟨_, ht, .inl (.inl rfl)⟩
  · exact ⟨_, ht, .inr hr⟩

/-- PROG_LEN counts the program's bytes (R8). -/
theorem State.length_prog_bytes (s : State) : s.prog.bytes.length = s.progLen := Memory.length_bytes s.prog

/-- A step after which the run goes on leaves fewer program bytes behind `PC`. -/
theorem State.ProgramOk.bytesLeft_lt_of_step_running {s t : State} (hok : s.ProgramOk) (hr : s.rs = .running)
    (h : step s = .next t) (ht : t.rs = .running) : t.progLen - t.pc.toNat < s.progLen - s.pc.toNat := by
  obtain ⟨i, hbytes, _⟩ := hok.consumes_of_step_running hr h ht
  have hprog : t.progLen = s.progLen := State.progLen_of_prog ((step_prog hr h).trans (if_pos ht))
  have hpos : 0 < (encode i).length := Nat.succ_pos _
  have hlen := congrArg List.length hbytes
  rw [List.length_append, List.length_drop, List.length_drop, State.length_prog_bytes] at hlen
  omega

/-- A run that has ended is not in progress. -/
theorem State.Ended.not_running {s : State} (h : s.Ended) : s.rs ≠ .running := by
  rcases h with h | h
  · rw [h]; nofun
  · rw [h]; nofun

/-- More steps than program bytes left end a run: each step ends it or leaves fewer bytes, and past its end nothing changes (R82). -/
theorem State.ProgramOk.run_ends {s : State} (hok : s.ProgramOk) (hr : s.rs = .running) {n : Nat}
    (hn : s.progLen - s.pc.toNat < n) : ∃ t : State, Host.Core.run core n s = .next t ∧ t.Ended := by
  induction n generalizing s with
  | zero => exact absurd hn (Nat.not_lt_zero _)
  | succ n ih =>
    obtain ⟨u, hu, hended | hrun⟩ := exists_step_ended_or_running hr
    · exact ⟨u, (run_succ n hu).trans (run_of_not_running n hended.not_running), hended⟩
    · have hleft := hok.bytesLeft_lt_of_step_running hr hu hrun
      obtain ⟨t, ht, hended⟩ := ih (hok.step_of_running hr hu) hrun (by omega)
      exact ⟨t, (run_succ n hu).trans ht, hended⟩

/-- What `run(program)` keeps at every step: `SP`, and a fault record exactly in FAULTED. -/
def State.RunKeeps (sp : Byte) (s : State) : Prop := s.sp = sp ∧ (s.fr.isSome = true ↔ s.rs = .faulted)

/-- Every step keeps both, by what it writes. -/
theorem State.RunKeeps.step {sp : Byte} {s t : State} (hs : s.RunKeeps sp) (h : step s = .next t) : t.RunKeeps sp :=
  ⟨(step_sp h).trans hs.1, step_keeps_recordIffFaulted hs.2 h⟩

/-- An ended run returns normally without a record, or reports the one it has (R80). -/
theorem State.Ended.runEnd_cases {s : State} (h : s.Ended) (hfr : s.fr.isSome = true ↔ s.rs = .faulted) :
    (s.rs = .halted ∧ s.fr = none ∧ s.runEnd = some .returned) ∨
      (s.rs = .faulted ∧ ∃ c : FatalCondition, s.fr = some c ∧ s.runEnd = some (.reported (some c))) := by
  rcases h with hrs | hrs
  · have hnone : s.fr = none := by simpa [hrs] using hfr
    exact .inl ⟨hrs, hnone, by rw [State.runEnd, hrs]⟩
  · obtain ⟨c, hc⟩ := Option.isSome_iff_exists.1 (hfr.2 hrs)
    exact .inr ⟨hrs, c, hc, by rw [State.runEnd, hrs, hc]⟩

/-! ## The statements -/

/-- Settles O42: one step more than the program bytes left ends the run. -/
theorem everyRunEnds : Obligations.EveryRunEnds := by
  intro s hinv hr
  obtain ⟨t, ht, hended⟩ := hinv.programOk.run_ends hr (Nat.lt_succ_self _)
  exact ⟨_, t, Nat.le_refl _, ht, hended⟩

/-- Settles O43: START begins the run at 0, PROG_LEN + 1 steps end it, and every step keeps `SP` and the record's agreement with `RS`. -/
theorem runProgramEndsAndReports : Obligations.RunProgramEndsAndReports := by
  intro s prog hr hlen
  have hprogLen : (s.beginRun prog).progLen = prog.length := Memory.length_ofBytes prog
  obtain ⟨t, ht, hended⟩ := (s.programOk_beginRun hlen).run_ends rfl (n := prog.length + 1) (by omega)
  have hbegun : (s.beginRun prog).RunKeeps s.sp := ⟨rfl, by simp⟩
  obtain ⟨hsp, hfr⟩ := run_keeps (Q := State.RunKeeps s.sp) (fun _ _ hu h => hu.step h) _ hbegun ht
  have hrun : runProgram prog s = .next t := by rw [runProgram, command_start hr hlen]; exact ht
  exact ⟨t, hrun, hsp, hended.runEnd_cases hfr⟩

end Sys2Proof.Machine
